-- ==== Sys2Proof/Word.lean ====
section
/-! DEFINITION. The two value types of the block (spec 00_scope.md R4, R6). Every value is unsigned. -/
namespace Sys2Proof

/-- `u8`: DATA_WIDTH = 8 bits (A, X, Y, the status byte, a memory cell). -/
abbrev Byte := BitVec 8

/-- `u16`: ADDR_WIDTH = 16 bits (PC, effective addresses). -/
abbrev Word := BitVec 16

end Sys2Proof
end

