-- ==== Sys2Proof/Syntax.lean ====
section
/-! DEFINITION. The instructions as syntax (spec 30_encoding.md R38, R43, R44) and the addressing modes (40_addressing.md
R50). The operand fields are those of the formats `imm8`, `zp8` and `abs16` of rule R38. -/
namespace Sys2Proof

/-- The closed mode set of rule R50. `zeroPageY` is used by no opcode (R54); `noneAddressing` is the sentinel of R60. -/
inductive Mode where
  | immediate
  | zeroPage
  | zeroPageX
  | zeroPageY
  | absolute
  | absoluteX
  | absoluteY
  | indirectX
  | indirectY
  | noneAddressing
  deriving DecidableEq, Repr

/-- One constructor for each listed opcode of rule R43, and one for the 245 unlisted byte values of rule R44, which share
one rule (R65) and one mnemonic and are told apart by the byte (notes/assumptions/11.md). -/
inductive Instr where
  /-- HLT, 0x00 (R64). -/
  | hlt
  /-- LDA #imm, 0xA9 (R69). -/
  | ldaImm (imm : Byte)
  /-- LDA zp, 0xA5 (R70). -/
  | ldaZp (zp : Byte)
  /-- LDA zp,X, 0xB5 (R71). -/
  | ldaZpX (zp : Byte)
  /-- LDA abs, 0xAD (R72). -/
  | ldaAbs (base : Word)
  /-- LDA abs,X, 0xBD (R73). -/
  | ldaAbsX (base : Word)
  /-- LDA abs,Y, 0xB9 (R74). -/
  | ldaAbsY (base : Word)
  /-- LDA (zp,X), 0xA1 (R75). -/
  | ldaIndX (zp : Byte)
  /-- LDA (zp),Y, 0xB1 (R76). -/
  | ldaIndY (zp : Byte)
  /-- TAX, 0xAA (R77). -/
  | tax
  /-- INX, 0xE8 (R78). -/
  | inx
  /-- An unlisted opcode byte (R44, R65). -/
  | nopUnlisted (opcode : Byte)
  deriving DecidableEq, Repr

end Sys2Proof
end

