-- ==== Sys2Proof/WellFormed.lean ====
section
/-! DEFINITION. Which terms of `Instr` stand for an instruction of the block. -/
namespace Sys2Proof

/-- The eleven listed opcodes of rule R43. -/
def listedOpcodes : List Byte :=
  [0x00, 0xA9, 0xA5, 0xB5, 0xAD, 0xBD, 0xB9, 0xA1, 0xB1, 0xAA, 0xE8]

/-- Every field value is admitted by its format (R38) but one: an unlisted no-op carries an opcode that rule R43 does not
list (R44). -/
def Instr.wf : Instr → Bool
  | .hlt => true
  | .ldaImm _ => true
  | .ldaZp _ => true
  | .ldaZpX _ => true
  | .ldaAbs _ => true
  | .ldaAbsX _ => true
  | .ldaAbsY _ => true
  | .ldaIndX _ => true
  | .ldaIndY _ => true
  | .tax => true
  | .inx => true
  | .nopUnlisted opcode => !listedOpcodes.contains opcode

end Sys2Proof
end

