-- ==== Sys2Proof/Decode.lean ====
section
/-! DEFINITION. The encoding tables of 30_encoding.md, the decoder, total on any list of bytes, and the encoder. -/
namespace Sys2Proof

/-! ### Byte and word helpers (R6) -/

/-- `zext_16(b)`. -/
def zext16 (b : Byte) : Word := b.zeroExtend 16

/-- `hi ++ lo` = `(hi << 8) | lo` (R6). -/
def joinBytes (hi lo : Byte) : Word := (zext16 hi <<< 8) ||| zext16 lo

/-- `w[7:0]`. -/
def lowByte (w : Word) : Byte := w.extractLsb' 0 8

/-- `w[15:8]`. -/
def highByte (w : Word) : Byte := w.extractLsb' 8 8

/-! ### The tables of rules R42 and R43 -/

/-- `W(mode)`, the operand width in bytes (R42). -/
def operandWidth : Mode → Nat
  | .immediate => 1
  | .zeroPage => 1
  | .zeroPageX => 1
  | .zeroPageY => 1
  | .indirectX => 1
  | .indirectY => 1
  | .absolute => 2
  | .absoluteX => 2
  | .absoluteY => 2
  | .noneAddressing => 0

/-- What a row of the opcode map says an opcode does: the alternatives of `Decode(op)` in rule R63. -/
inductive Operation where
  | halt
  | loadA (mode : Mode)
  | transferAToX
  | incrementX
  | unlisted
  deriving DecidableEq, Repr

/-- The eleven rows of rule R43, in its order. -/
def opcodeRows : List (Byte × Operation) :=
  [(0x00, .halt),
   (0xA9, .loadA .immediate),
   (0xA5, .loadA .zeroPage),
   (0xB5, .loadA .zeroPageX),
   (0xAD, .loadA .absolute),
   (0xBD, .loadA .absoluteX),
   (0xB9, .loadA .absoluteY),
   (0xA1, .loadA .indirectX),
   (0xB1, .loadA .indirectY),
   (0xAA, .transferAToX),
   (0xE8, .incrementX)]

/-- The table lookup of rule R45: the listed row, or the unlisted no-op (R44). -/
def operationOf (opcode : Byte) : Operation := (opcodeRows.lookup opcode).getD .unlisted

/-- The mode an operation's operand is resolved in; `noneAddressing` for the operations that have none (R43). -/
def Operation.mode : Operation → Mode
  | .loadA mode => mode
  | .halt => .noneAddressing
  | .transferAToX => .noneAddressing
  | .incrementX => .noneAddressing
  | .unlisted => .noneAddressing

/-- How many operand bytes follow an opcode (R37, R42). -/
def operandCount (opcode : Byte) : Nat := operandWidth (operationOf opcode).mode

/-! ### The decoder -/

/-- Why a list of bytes is no instruction. Every byte value is an opcode (R45), so only missing bytes are rejected. -/
inductive DecodeReject where
  /-- There is no opcode byte. -/
  | noOpcode
  /-- The opcode's operand bytes are not all there. -/
  | missingOperand (opcode : Byte)
  /-- The opcode table names a mode no load form has (no row of R43 does). -/
  | noSuchForm (opcode : Byte)
  deriving DecidableEq, Repr

/-- A one-byte operand (formats `imm8` and `zp8`, R38). -/
def takeByte (opcode : Byte) (make : Byte → Instr) : List Byte → Except DecodeReject (Instr × List Byte)
  | b :: rest => .ok (make b, rest)
  | [] => .error (.missingOperand opcode)

/-- A two-byte operand, low byte first (format `abs16`, R38, R40). -/
def takeWord (opcode : Byte) (make : Word → Instr) : List Byte → Except DecodeReject (Instr × List Byte)
  | lo :: hi :: rest => .ok (make (joinBytes hi lo), rest)
  | [_] => .error (.missingOperand opcode)
  | [] => .error (.missingOperand opcode)

/-- The Load-A form of a mode, read from the bytes after the opcode (R43). -/
def decodeLoad (opcode : Byte) (mode : Mode) (rest : List Byte) : Except DecodeReject (Instr × List Byte) :=
  match mode with
  | .immediate => takeByte opcode .ldaImm rest
  | .zeroPage => takeByte opcode .ldaZp rest
  | .zeroPageX => takeByte opcode .ldaZpX rest
  | .zeroPageY => .error (.noSuchForm opcode)
  | .absolute => takeWord opcode .ldaAbs rest
  | .absoluteX => takeWord opcode .ldaAbsX rest
  | .absoluteY => takeWord opcode .ldaAbsY rest
  | .indirectX => takeByte opcode .ldaIndX rest
  | .indirectY => takeByte opcode .ldaIndY rest
  | .noneAddressing => .error (.noSuchForm opcode)

/-- The instruction at the head of a list of bytes, with the bytes after it (R37, R45). -/
def decode : List Byte → Except DecodeReject (Instr × List Byte)
  | [] => .error .noOpcode
  | opcode :: rest =>
    match operationOf opcode with
    | .halt => .ok (.hlt, rest)
    | .loadA mode => decodeLoad opcode mode rest
    | .transferAToX => .ok (.tax, rest)
    | .incrementX => .ok (.inx, rest)
    | .unlisted => .ok (.nopUnlisted opcode, rest)

/-- The instruction a table word stands for. Bit 0 of `w` is bit 0 of the first byte, and the second byte is bits 15..8;
the bytes above `nbits` are 0. -/
def decodeTableWord (nbits w : Nat) : Option Instr :=
  let v := w % 2 ^ nbits
  match decode [BitVec.ofNat 8 v, BitVec.ofNat 8 (v / 256), BitVec.ofNat 8 (v / 65536)] with
  | .ok (i, _) => some i
  | .error _ => none

/-! ### The encoder (R38, R43) -/

/-- The opcode byte of an instruction (R43; an unlisted no-op is its own byte, R44). -/
def Instr.opcode : Instr → Byte
  | .hlt => 0x00
  | .ldaImm _ => 0xA9
  | .ldaZp _ => 0xA5
  | .ldaZpX _ => 0xB5
  | .ldaAbs _ => 0xAD
  | .ldaAbsX _ => 0xBD
  | .ldaAbsY _ => 0xB9
  | .ldaIndX _ => 0xA1
  | .ldaIndY _ => 0xB1
  | .tax => 0xAA
  | .inx => 0xE8
  | .nopUnlisted opcode => opcode

/-- The operand bytes of an instruction, in address order (R38). -/
def Instr.operandBytes : Instr → List Byte
  | .hlt => []
  | .ldaImm imm => [imm]
  | .ldaZp zp => [zp]
  | .ldaZpX zp => [zp]
  | .ldaAbs base => [lowByte base, highByte base]
  | .ldaAbsX base => [lowByte base, highByte base]
  | .ldaAbsY base => [lowByte base, highByte base]
  | .ldaIndX zp => [zp]
  | .ldaIndY zp => [zp]
  | .tax => []
  | .inx => []
  | .nopUnlisted _ => []

/-- The bytes of an instruction: its opcode, then its operand. -/
def encode (i : Instr) : List Byte := i.opcode :: i.operandBytes

/-- The addressing mode of an instruction (R43). -/
def Instr.mode : Instr → Mode
  | .hlt => .noneAddressing
  | .ldaImm _ => .immediate
  | .ldaZp _ => .zeroPage
  | .ldaZpX _ => .zeroPageX
  | .ldaAbs _ => .absolute
  | .ldaAbsX _ => .absoluteX
  | .ldaAbsY _ => .absoluteY
  | .ldaIndX _ => .indirectX
  | .ldaIndY _ => .indirectY
  | .tax => .noneAddressing
  | .inx => .noneAddressing
  | .nopUnlisted _ => .noneAddressing

/-- The instruction length `1 + W(mode)` (R37, R45). -/
def Instr.length (i : Instr) : Nat := 1 + operandWidth i.mode

end Sys2Proof
end

