-- ==== Sys2Proof/Config.lean ====
section
/-! DEFINITION. The two implementation parameters of rule R4. They are chosen once for a machine, and no step and no
host call writes them. The machine's state carries them (`State.cfg`), so `step` and every statement about it
cover all their values (notes/assumptions/1.md and 2.md). -/
namespace Sys2Proof

/-- `MEM_SIZE` (R4, R24): the reference's 65535 bytes, in which 0xFFFF does not exist, or the corrected 65536. -/
inductive MemSize where
  | bytes65535
  | bytes65536
  deriving DecidableEq, Repr

/-- `OMIT_ADVANCE_OPCODE` (R4, R63): the one indirect opcode, if any, that leaves out its operand advance. -/
inductive OmitAdvance where
  | none
  | opcodeA1
  | opcodeB1
  deriving DecidableEq, Repr

/-- One choice of the parameters. -/
structure Config where
  memSize : MemSize
  omitAdvance : OmitAdvance
  deriving DecidableEq, Repr

/-- The defaults rule R4 gives: the reference's store size and the uniform operand advance. -/
def Config.default : Config := { memSize := .bytes65535, omitAdvance := .none }

end Sys2Proof
end

