-- ==== Sys2Proof/Machine/State.lean ====
section
/-! DEFINITION. Everything the spec gives the machine (10_state.md R8 to R20), as plain data, and the state right after
`reset` (R21). -/
namespace Sys2Proof.Machine

open Sys2Proof

/-- Whether an access reads or writes (R79). -/
inductive Access where
  | read
  | write
  deriving DecidableEq, Repr

/-- The two faults of rule R79. A fault is TAKEN by entering `RunState.faulted` (R84), and a step of a core in that state
stops with the same fault (notes/assumptions/5.md). -/
inductive Fault where
  /-- Raised by `readByte`, `writeByte` and `load` at an address at or past the store's size (R28, R30, R80, R93).
  Safe: the source calls the access unchecked, and the model stops where a part might go on with some value. -/
  | outOfBounds (addr : Nat) (access : Access)
  /-- Raised by resolving NoneAddressing (R60, R81), and by a step whose fetched bytes the decoder rejects. No byte
  sequence reaches either. Safe: a defect of the decoder would show as a stop and not as a value. -/
  | internalDefect (mode : Mode)
  deriving DecidableEq, Repr

/-- What has no meaning in the model. -/
inductive Refusal where
  /-- Raised by an arm of `exec` whose instruction has no meaning yet. No arm does. Safe. -/
  | notModelled (mnemonic : String)
  /-- Raised by a host call made while the run state is Running: a call blocks until it returns, so none can come
  (R34, D11). Safe: nothing is said of such a call. -/
  | hostCallWhileRunning
  /-- Raised by host seeding of a faulted core, which the host may only inspect (R96). Safe. -/
  | seedingFaultedCore
  /-- Raised by host inspection of a byte at or past the store's size: it has no value, and the core does not fault
  (R96, D11). Safe. -/
  | hostReadBeyondStore (addr : Nat)
  deriving DecidableEq, Repr

/-- The run state `RS` (R19). -/
inductive RunState where
  | idle
  | running
  | halted
  | faulted (f : Fault)
  deriving DecidableEq, Repr

/-- The store's contents: address and byte, in the canonical form of `Memory.wf`. An unlisted address reads as
`unlistedByte` (both in Machine/Memory.lean). -/
abbrev Memory := List Host.Cell

/-- The whole machine. -/
structure State where
  /-- Accumulator (R9). -/
  a : Byte
  /-- Index register X (R10). -/
  x : Byte
  /-- Index register Y (R11). -/
  y : Byte
  /-- Status byte, all eight bits (R13, R14). -/
  p : Byte
  /-- Program counter (R12). -/
  pc : Word
  /-- The store `M` (R20). -/
  mem : Memory
  /-- Run state (R19). -/
  rs : RunState
  /-- The parameters of this machine (R4); nothing writes them. -/
  cfg : Config
  deriving DecidableEq, Repr

/-- The launch parameters of rule R4 and R91: what the registers and the store hold at power-on. -/
structure Launch where
  a0 : Byte
  x0 : Byte
  y0 : Byte
  p0 : Byte
  pc0 : Word
  mem0 : Memory
  deriving DecidableEq, Repr

/-- The launch this model names where one is needed. DESIGN CHOICE (notes/assumptions/3.md and 4.md): all zero, and
nothing in memory. -/
def Launch.zero : Launch := { a0 := 0, x0 := 0, y0 := 0, p0 := 0, pc0 := 0, mem0 := [] }

/-- The machine right after `reset` (R21): A, X and P zero, RS Idle, PC read from the vector. Y and the store are what
they were at launch, by `Launch.zero`; so the vector's two bytes, and with them PC, are 0x0000
(notes/assumptions/3.md and 4.md). -/
def State.reset : State :=
  { a := 0x00, x := 0x00, y := 0x00, p := 0x00, pc := 0x0000, mem := [], rs := .idle, cfg := Config.default }

end Sys2Proof.Machine
end

