-- ==== Sys2Proof/Machine/Flags.lean ====
section
/-! DEFINITION. The status byte's two flags and the one flag computation of the block (10_state.md R13, R16 to R18). -/
namespace Sys2Proof.Machine

open Sys2Proof

/-- The Zero flag, `P[1]` (R16). -/
def zeroFlag (p : Byte) : Bool := p.getLsbD 1

/-- The Negative flag, `P[7]` (R17). -/
def negativeFlag (p : Byte) : Bool := p.getLsbD 7

/-- The bits of P that no instruction writes: 6 to 2 and 0 (R14, R18). -/
def unusedBits (p : Byte) : Byte := p &&& 0x7D

/-- `UpdateZN(v)` on the status byte: Z is whether `v` is zero, N is `v[7]`, every other bit stays (R18). -/
def updateZN (v p : Byte) : Byte :=
  let z : Byte := if v = 0 then 1 else 0
  let n : Byte := if v.getLsbD 7 then 1 else 0
  unusedBits p ||| (n <<< 7) ||| (z <<< 1)

end Sys2Proof.Machine
end

