-- ==== Sys2Proof/Machine/Memory.lean ====
section
/-! DEFINITION. The store as a list of address and byte, in one canonical form (20_memory.md R24, R34). -/
namespace Sys2Proof.Machine

open Sys2Proof

/-- What an address that the list does not hold reads as. DESIGN CHOICE (notes/assumptions/4.md): 0x00. Every content
of the store is some list, so a statement about every memory covers every launch content MEM0. -/
def unlistedByte : Byte := 0x00

/-- The byte stored at an address. -/
def Memory.read : Memory → Nat → Byte
  | [], _ => unlistedByte
  | (k, v) :: m, a => if a < k then unlistedByte else if a = k then v else Memory.read m a

/-- Store a byte, keeping the canonical form. -/
def Memory.write : Memory → Nat → Byte → Memory
  | [], a, v => if v = unlistedByte then [] else [(a, v)]
  | (k, w) :: m, a, v =>
    if a < k then (if v = unlistedByte then (k, w) :: m else (a, v) :: (k, w) :: m)
    else if a = k then (if v = unlistedByte then m else (a, v) :: m)
    else (k, w) :: Memory.write m a v

/-- Every address of the list is at least `lo`, they rise strictly, and no entry equals what an unlisted address
reads as. -/
def Memory.wfFrom : Nat → Memory → Bool
  | _, [] => true
  | lo, (k, v) :: m => decide (lo ≤ k) && decide (v ≠ unlistedByte) && Memory.wfFrom (k + 1) m

/-- The canonical form: equal contents are equal lists. -/
def Memory.wf (m : Memory) : Bool := Memory.wfFrom 0 m

/-- Every listed address is below `size`. -/
def Memory.within (size : Nat) (m : Memory) : Bool := m.all fun cell => decide (cell.1 < size)

end Sys2Proof.Machine
end

