-- ==== Sys2Proof/Machine/Ops.lean ====
section
/-! DEFINITION. The named operations over memory and registers that every meaning and every host call is written with:
the store's bound, ReadByte, ReadWord, WriteByte, WriteWord (20_memory.md R28 to R31), the register writes with their
flag update, the PC advances, and taking a fault (60_exceptions.md R84). -/
namespace Sys2Proof.Machine

open Sys2Proof

/-! ### The fixed addresses of rule R4 -/

/-- `LOAD_ORIGIN`. -/
def loadOrigin : Word := 0x8000

/-- `RESET_VECTOR`, the address of its low byte. -/
def resetVector : Word := 0xFFFC

/-! ### Reads -/

/-- `MEM_SIZE` in bytes (R4, R24). -/
def storeSize (c : Config) : Nat :=
  match c.memSize with
  | .bytes65535 => 65535
  | .bytes65536 => 65536

/-- `ReadByte(a)` (R28). -/
def readByte (s : State) (a : Word) : Except Fault Byte :=
  if storeSize s.cfg ≤ a.toNat then .error (.outOfBounds a.toNat .read) else .ok (s.mem.read a.toNat)

/-- `ReadWord(a)`: low byte at `a`, then high byte at `a + 1` modulo 65536 (R25, R29; notes/assumptions/6.md, 7.md). -/
def readWord (s : State) (a : Word) : Except Fault Word := do
  let lo ← readByte s a
  let hi ← readByte s (a + 1)
  return joinBytes hi lo

/-! ### Writes: only host calls make them (R27, R30) -/

/-- `WriteByte` at an address given as a number, which an over-long image needs (R79, R93). -/
def storeAt (s : State) (addr : Nat) (v : Byte) : Except Fault State :=
  if storeSize s.cfg ≤ addr then .error (.outOfBounds addr .write) else .ok { s with mem := s.mem.write addr v }

/-- `WriteByte(a, v)` (R30). -/
def writeByte (s : State) (a : Word) (v : Byte) : Except Fault State := storeAt s a.toNat v

/-- `WriteWord(a, v)`: low byte first, then high byte at `a + 1` modulo 65536 (R31). -/
def writeWord (s : State) (a : Word) (v : Word) : Except Fault State := do
  let t ← writeByte s a (lowByte v)
  writeByte t (a + 1) (highByte v)

/-! ### Register writes -/

/-- `A <- v`, then `UpdateZN(v)` (R66 items 5 and 6). -/
def setA (v : Byte) (s : State) : State := { s with a := v, p := updateZN v s.p }

/-- `X <- v`, then `UpdateZN(v)` (R66 items 5 and 6). -/
def setX (v : Byte) (s : State) : State := { s with x := v, p := updateZN v s.p }

/-- `PC <- PC +16 n` (R12, R62, R63; the wrap past 0xFFFF is notes/assumptions/6.md). -/
def advancePc (n : Nat) (s : State) : State := { s with pc := s.pc + BitVec.ofNat 16 n }

/-- Whether `OMIT_ADVANCE_OPCODE` is this opcode (R63). -/
def omitsAdvance (c : Config) (opcode : Byte) : Bool :=
  match c.omitAdvance with
  | .none => false
  | .opcodeA1 => opcode == 0xA1
  | .opcodeB1 => opcode == 0xB1

/-- The operand advance of rule R63: `W(mode)` bytes, unless `OMIT_ADVANCE_OPCODE` is this opcode. -/
def advanceOperand (opcode : Byte) (mode : Mode) (s : State) : State :=
  if omitsAdvance s.cfg opcode then s else advancePc (operandWidth mode) s

/-! ### Taking a fault; there is no return from one (R85) -/

/-- The fault's number (R79). -/
def Fault.code : Fault → Nat
  | .outOfBounds _ _ => 1
  | .internalDefect _ => 2

/-- What a fault does (R84): the run state becomes `Faulted(f)`. Nothing is saved, no vector is read, and what the step
had done before the faulting access stays done. -/
def takeFault (f : Fault) (s : State) : State := { s with rs := .faulted f }

/-- Go on with the value of an access, or take its fault in the state the step had reached. -/
def withAccess {α : Type} (r : Except Fault α) (s : State) (k : α → State) : State :=
  match r with
  | .ok v => k v
  | .error f => takeFault f s

end Sys2Proof.Machine
end

