-- ==== Sys2Proof/Machine/Control.lean ====
section
/-! DEFINITION. Halt and the unlisted opcodes (41_dispatch.md R64, R65). -/
namespace Sys2Proof.Machine

open Sys2Proof

/-- HLT, 0x00: the run state becomes Halted, nothing else changes (R64). -/
def execHlt (s : State) : Host.Outcome State Fault Refusal := .next { s with rs := .halted }

/-- An unlisted opcode: nothing after the fetch advance, whatever the byte (R65). -/
def execNopUnlisted (_opcode : Byte) (s : State) : Host.Outcome State Fault Refusal := .next s

end Sys2Proof.Machine
end

