-- ==== Sys2Proof/Machine/Operands.lean ====
section
/-! DEFINITION. The addressing-mode resolver (40_addressing.md R50 to R60). Each mode is an operand read from the
instruction stream at PC and an address computed from that operand. `resolve` is the spec's own function, over both
halves; the machine reads the operand when it fetches the instruction and computes the address in the meaning
(notes/assumptions/12.md), with the same functions. -/
namespace Sys2Proof.Machine

open Sys2Proof

/-- An index added within the zero page: `zext_16(b +8 index)` (R53, R54). -/
def zeroPageIndexed (b index : Byte) : Word := zext16 (b + index)

/-- An index added over the whole 16-bit space: `base +16 zext_16(index)` (R56, R57, R59). -/
def absoluteIndexed (base : Word) (index : Byte) : Word := base + zext16 index

/-- The little-endian pointer at a zero-page address; its high byte's address wraps within the zero page (R58, R59). -/
def readPointer (s : State) (p : Byte) : Except Fault Word := do
  let lo ← readByte s (zext16 p)
  let hi ← readByte s (zext16 (p + 1))
  return joinBytes hi lo

/-- IndirectX: the index is added to the pointer's address, modulo 256 (R58). -/
def indirectXAddress (s : State) (b : Byte) : Except Fault Word := readPointer s (b + s.x)

/-- IndirectY: the index is added to the pointer's value, modulo 65536 (R59). -/
def indirectYAddress (s : State) (b : Byte) : Except Fault Word := do
  let base ← readPointer s b
  return absoluteIndexed base s.y

/-- `Resolve(mode)`: the effective address, with PC at the first operand byte (R50). It writes nothing and does not
advance PC. -/
def resolve (s : State) : Mode → Except Fault Word
  -- R51
  | .immediate => .ok s.pc
  -- R52
  | .zeroPage => do return zext16 (← readByte s s.pc)
  -- R53
  | .zeroPageX => do return zeroPageIndexed (← readByte s s.pc) s.x
  -- R54
  | .zeroPageY => do return zeroPageIndexed (← readByte s s.pc) s.y
  -- R55
  | .absolute => readWord s s.pc
  -- R56
  | .absoluteX => do return absoluteIndexed (← readWord s s.pc) s.x
  -- R57
  | .absoluteY => do return absoluteIndexed (← readWord s s.pc) s.y
  -- R58
  | .indirectX => do indirectXAddress s (← readByte s s.pc)
  -- R59
  | .indirectY => do indirectYAddress s (← readByte s s.pc)
  -- R60
  | .noneAddressing => .error (.internalDefect .noneAddressing)

end Sys2Proof.Machine
end

