-- ==== Sys2Proof/Machine/Load.lean ====
section
/-! DEFINITION. Load-A, eight forms (42_load.md R69 to R76). A meaning starts with PC one past the opcode, as the fetch
phase leaves it (R62), and its operand is the instruction's field. -/
namespace Sys2Proof.Machine

open Sys2Proof

/-- `A <- v; UpdateZN(v)`, then the operand advance (R66 items 5 to 7). -/
def finishLoad (opcode : Byte) (mode : Mode) (v : Byte) (s : State) : State :=
  advanceOperand opcode mode (setA v s)

/-- The data read at the effective address, then the load's writes. A fault of the address or of the data read is taken
before any of them (R66, R84). -/
def loadFrom (opcode : Byte) (mode : Mode) (ea : Except Fault Word) (s : State) : State :=
  withAccess (ea >>= readByte s) s fun v => finishLoad opcode mode v s

/-- LDA #imm, 0xA9 (R69). The data read is the read of the operand byte itself, which the fetch has made. -/
def execLdaImm (imm : Byte) (s : State) : Host.Outcome State Fault Refusal :=
  .next (finishLoad 0xA9 .immediate imm s)

/-- LDA zp, 0xA5 (R70). -/
def execLdaZp (zp : Byte) (s : State) : Host.Outcome State Fault Refusal :=
  .next (loadFrom 0xA5 .zeroPage (.ok (zext16 zp)) s)

/-- LDA zp,X, 0xB5 (R71). -/
def execLdaZpX (zp : Byte) (s : State) : Host.Outcome State Fault Refusal :=
  .next (loadFrom 0xB5 .zeroPageX (.ok (zeroPageIndexed zp s.x)) s)

/-- LDA abs, 0xAD (R72). -/
def execLdaAbs (base : Word) (s : State) : Host.Outcome State Fault Refusal :=
  .next (loadFrom 0xAD .absolute (.ok base) s)

/-- LDA abs,X, 0xBD (R73). -/
def execLdaAbsX (base : Word) (s : State) : Host.Outcome State Fault Refusal :=
  .next (loadFrom 0xBD .absoluteX (.ok (absoluteIndexed base s.x)) s)

/-- LDA abs,Y, 0xB9 (R74). -/
def execLdaAbsY (base : Word) (s : State) : Host.Outcome State Fault Refusal :=
  .next (loadFrom 0xB9 .absoluteY (.ok (absoluteIndexed base s.y)) s)

/-- LDA (zp,X), 0xA1 (R75). -/
def execLdaIndX (zp : Byte) (s : State) : Host.Outcome State Fault Refusal :=
  .next (loadFrom 0xA1 .indirectX (indirectXAddress s zp) s)

/-- LDA (zp),Y, 0xB1 (R76). -/
def execLdaIndY (zp : Byte) (s : State) : Host.Outcome State Fault Refusal :=
  .next (loadFrom 0xB1 .indirectY (indirectYAddress s zp) s)

end Sys2Proof.Machine
end

