-- ==== Sys2Proof/Machine/Register.lean ====
section
/-! DEFINITION. The register instructions (43_register.md R77, R78). -/
namespace Sys2Proof.Machine

open Sys2Proof

/-- TAX, 0xAA: X <- A, flags from X (R77). -/
def execTax (s : State) : Host.Outcome State Fault Refusal := .next (setX s.a s)

/-- INX, 0xE8: X <- X + 1 modulo 256, flags from X (R78). -/
def execInx (s : State) : Host.Outcome State Fault Refusal := .next (setX (s.x + 1) s)

end Sys2Proof.Machine
end

