-- ==== Sys2Proof/Machine/Dispatch.lean ====
section
/-! DEFINITION. The dispatcher's execute phase (41_dispatch.md R63): one arm for each constructor of `Instr`. The state
`exec` is given is the one after the fetch phase, with PC one past the opcode (R62). -/
namespace Sys2Proof.Machine

open Sys2Proof

def exec (i : Instr) (s : State) : Host.Outcome State Fault Refusal :=
  match i with
  | .hlt => Sys2Proof.Machine.execHlt s
  | .ldaImm imm => Sys2Proof.Machine.execLdaImm imm s
  | .ldaZp zp => Sys2Proof.Machine.execLdaZp zp s
  | .ldaZpX zp => Sys2Proof.Machine.execLdaZpX zp s
  | .ldaAbs base => Sys2Proof.Machine.execLdaAbs base s
  | .ldaAbsX base => Sys2Proof.Machine.execLdaAbsX base s
  | .ldaAbsY base => Sys2Proof.Machine.execLdaAbsY base s
  | .ldaIndX zp => Sys2Proof.Machine.execLdaIndX zp s
  | .ldaIndY zp => Sys2Proof.Machine.execLdaIndY zp s
  | .tax => Sys2Proof.Machine.execTax s
  | .inx => Sys2Proof.Machine.execInx s
  | .nopUnlisted opcode => Sys2Proof.Machine.execNopUnlisted opcode s

end Sys2Proof.Machine
end

