-- ==== Sys2Proof/Machine/Fetch.lean ====
section
/-! DEFINITION. The fetch phase (41_dispatch.md R62) and the read of the operand bytes, which the resolver's rules and
the immediate data read make at PC and PC + 1, in that order (R66; notes/assumptions/12.md). -/
namespace Sys2Proof.Machine

open Sys2Proof

/-- `n` bytes from `a` on, lowest address first, each address modulo 65536 (R38). -/
def readBytes (s : State) (a : Word) : Nat → Except Fault (List Byte)
  | 0 => .ok []
  | n + 1 => do
    let b ← readByte s a
    let rest ← readBytes s (a + 1) n
    return b :: rest

/-- What the fetch makes of the bytes it read. The decoder takes them always; were it not to, the core would show an
internal defect and not a value (R81; notes/assumptions/13.md). -/
def decodeFetched (bytes : List Byte) : Except Fault Instr :=
  match decode bytes with
  | .ok (i, _) => .ok i
  | .error _ => .error (.internalDefect .noneAddressing)

/-- The state at which execution goes on, and the instruction, or the fault a read raised there. A fault of the opcode
read leaves PC at the opcode, a fault of an operand read leaves it one past (R62, R84). -/
def fetch (s : State) : State × Except Fault Instr :=
  match readByte s s.pc with
  | .error f => (s, .error f)
  | .ok opcode =>
    let t := advancePc 1 s
    (t, do decodeFetched (opcode :: (← readBytes t t.pc (operandCount opcode))))

/-- Bytes placed in the store from `a` on, each address modulo 65536; a byte that falls outside the store is dropped
(notes/assumptions/10.md). -/
def placeBytes (s : State) (a : Word) : List Byte → State
  | [] => s
  | b :: rest =>
    match writeByte s a b with
    | .ok t => placeBytes t (a + 1) rest
    | .error _ => placeBytes s (a + 1) rest

end Sys2Proof.Machine
end

