-- ==== Sys2Proof/Machine/Step.lean ====
section
/-! DEFINITION. One step of the core (41_dispatch.md R61 to R63). -/
namespace Sys2Proof.Machine

open Sys2Proof

/-- While RS is Running, one dispatcher step: fetch, then execute, or take the fault the fetch raised. An idle or halted
core does nothing until the host calls (R61, R90; notes/assumptions/8.md). A faulted core runs no instruction: the
machine has stopped with its fault (R85; notes/assumptions/5.md). -/
def step (s : State) : Host.Outcome State Fault Refusal :=
  match s.rs with
  | .idle => .next s
  | .halted => .next s
  | .faulted f => .fault f
  | .running =>
    match fetch s with
    | (t, .error f) => .next (takeFault f t)
    | (t, .ok i) => exec i t

/-- The three bytes of a table word (the longest instruction, R37) placed at PC, and the core set running, as the host's
seeding and `run` would (R94, R96; notes/assumptions/10.md). -/
def State.withFetchWord (s : State) (nbits w : Nat) : State :=
  let v := w % 2 ^ nbits
  placeBytes { s with rs := .running } s.pc
    [BitVec.ofNat 8 v, BitVec.ofNat 8 (v / 256), BitVec.ofNat 8 (v / 65536)]

end Sys2Proof.Machine
end

