-- ==== Sys2Proof/Machine/Pseudocode.lean ====
section
/-! DEFINITION. The dispatcher as the spec writes it (41_dispatch.md R62, R63): the operand of a Load-A form is what the
resolver finds at PC, and the decoder sees the opcode byte alone. It is a second account of `step`, kept to be compared
with it; nothing runs it. -/
namespace Sys2Proof.Machine

open Sys2Proof

/-- `Execute(op)` of rule R63, in the state after the fetch phase. -/
def pseudoExecute (opcode : Byte) (s : State) : State :=
  match operationOf opcode with
  | .halt => { s with rs := .halted }
  | .unlisted => s
  | .transferAToX => setX s.a s
  | .incrementX => setX (s.x + 1) s
  | .loadA mode =>
    withAccess (resolve s mode) s fun ea =>
      withAccess (readByte s ea) s fun v =>
        advanceOperand opcode mode (setA v s)

/-- `Step()` of rule R62. -/
def pseudoStep (s : State) : State :=
  withAccess (readByte s s.pc) s fun opcode => pseudoExecute opcode (advancePc 1 s)

end Sys2Proof.Machine
end

