-- ==== Sys2Proof/Machine/HostCalls.lean ====
section
/-! DEFINITION. What the host can do to the core and see of it (70_reset_and_hazards.md R91 to R96, 10_state.md R22).
Each call is one atomic step of the whole system (D11); `run` starts the core, whose steps then follow
(Machine/Run.lean). -/
namespace Sys2Proof.Machine

open Sys2Proof

/-- The machine at power-on, with its launch parameters (R91). -/
def powerOn (c : Config) (l : Launch) : State :=
  { a := l.a0, x := l.x0, y := l.y0, p := l.p0, pc := l.pc0, mem := l.mem0, rs := .idle, cfg := c }

/-- Go on to the next call of a composition. -/
def andThen (r : Host.Outcome State Fault Refusal) (k : State → Host.Outcome State Fault Refusal) :
    Host.Outcome State Fault Refusal :=
  match r with
  | .next s => k s
  | .fault f => .fault f
  | .refused e => .refused e

/-- Whether and on what a call acts: not while Running (R34, D11), nothing on a faulted core (R85), else its effect
(notes/assumptions/9.md). -/
def hostGuard (s : State) (effect : State) : Host.Outcome State Fault Refusal :=
  match s.rs with
  | .running => .refused .hostCallWhileRunning
  | .faulted _ => .next s
  | .idle => .next effect
  | .halted => .next effect

/-- What `reset` makes of the state of a core that is not faulted (R92, R21). Its vector read cannot fault; were it to,
the core would take the fault. -/
def resetEffect (s : State) : State :=
  withAccess (readWord s resetVector) s fun v => { s with a := 0x00, x := 0x00, p := 0x00, pc := v, rs := .idle }

/-- `reset()` (R92). -/
def hostReset (s : State) : Host.Outcome State Fault Refusal := hostGuard s (resetEffect s)

/-- Store image bytes at rising addresses; the first one outside the store is a fault, taken with the bytes before it
written (R93, R84; notes/assumptions/15.md). -/
def storeImage (s : State) (addr : Nat) : List Byte → State
  | [] => s
  | b :: rest => withAccess (storeAt s addr b) s fun t => storeImage t (addr + 1) rest

/-- `load`'s effect: the image from LOAD_ORIGIN, then, unless that faulted, LOAD_ORIGIN into the reset vector (R93). -/
def loadEffect (img : List Byte) (s : State) : State :=
  let t := storeImage s loadOrigin.toNat img
  match t.rs with
  | .faulted _ => t
  | .idle => withAccess (writeWord t resetVector loadOrigin) t id
  | .running => withAccess (writeWord t resetVector loadOrigin) t id
  | .halted => withAccess (writeWord t resetVector loadOrigin) t id

/-- `load(bytes)` (R93). -/
def hostLoad (img : List Byte) (s : State) : Host.Outcome State Fault Refusal := hostGuard s (loadEffect img s)

/-- `run()`, up to its first step: RS becomes Running, and the core goes on from the PC it has (R94). -/
def hostRun (s : State) : Host.Outcome State Fault Refusal := hostGuard s { s with rs := .running }

/-- `load_and_run(bytes)`: `load`, then `reset`, then `run` (R95). -/
def hostLoadAndRun (img : List Byte) (s : State) : Host.Outcome State Fault Refusal :=
  andThen (andThen (hostLoad img s) hostReset) hostRun

/-- Seeding is allowed while Idle or Halted only (R96). -/
def seedGuard (s : State) (effect : State) : Host.Outcome State Fault Refusal :=
  match s.rs with
  | .running => .refused .hostCallWhileRunning
  | .faulted _ => .refused .seedingFaultedCore
  | .idle => .next effect
  | .halted => .next effect

/-- What the host seeds: a register with any value, or a byte of memory (R96). -/
inductive Seed where
  | a (v : Byte)
  | x (v : Byte)
  | y (v : Byte)
  | p (v : Byte)
  | pc (v : Word)
  | byte (addr : Word) (v : Byte)
  deriving DecidableEq, Repr

/-- The state a seed leaves. A byte goes through `WriteByte`, which faults the core at an address past the store
(R96). -/
def seedEffect (sd : Seed) (s : State) : State :=
  match sd with
  | .a v => { s with a := v }
  | .x v => { s with x := v }
  | .y v => { s with y := v }
  | .p v => { s with p := v }
  | .pc v => { s with pc := v }
  | .byte addr v => withAccess (writeByte s addr v) s id

/-- Host seeding (R96). -/
def hostSeed (sd : Seed) (s : State) : Host.Outcome State Fault Refusal := seedGuard s (seedEffect sd s)

/-- Everything the host can do to the core. -/
inductive HostCall where
  | load (img : List Byte)
  | reset
  | run
  | loadAndRun (img : List Byte)
  | seed (sd : Seed)
  deriving DecidableEq, Repr

/-- The effect of a host call. -/
def hostCall (c : HostCall) (s : State) : Host.Outcome State Fault Refusal :=
  match c with
  | .load img => hostLoad img s
  | .reset => hostReset s
  | .run => hostRun s
  | .loadAndRun img => hostLoadAndRun img s
  | .seed sd => hostSeed sd s

/-- The calls of a session, one after another, while none is refused. -/
def hostCalls : List HostCall → State → Host.Outcome State Fault Refusal
  | [], s => .next s
  | c :: rest, s => andThen (hostCall c s) (hostCalls rest)

/-! ### Inspection (R22, R96) -/

/-- The registers the host sees. The run state is not among them (R22). -/
structure RegisterView where
  a : Byte
  x : Byte
  y : Byte
  p : Byte
  pc : Word
  deriving DecidableEq, Repr

/-- The registers, unless the core is running (R22). -/
def inspectRegisters (s : State) : Except Refusal RegisterView :=
  match s.rs with
  | .running => .error .hostCallWhileRunning
  | .idle => .ok { a := s.a, x := s.x, y := s.y, p := s.p, pc := s.pc }
  | .halted => .ok { a := s.a, x := s.x, y := s.y, p := s.p, pc := s.pc }
  | .faulted _ => .ok { a := s.a, x := s.x, y := s.y, p := s.p, pc := s.pc }

/-- One byte of the store; a byte past its end has no value and is refused, and the core does not fault (R96, D11). -/
def inspectStore (s : State) (addr : Word) : Except Refusal Byte :=
  if storeSize s.cfg ≤ addr.toNat then .error (.hostReadBeyondStore addr.toNat) else .ok (s.mem.read addr.toNat)

/-- One byte of the store, unless the core is running (R22). -/
def inspectByte (s : State) (addr : Word) : Except Refusal Byte :=
  match s.rs with
  | .running => .error .hostCallWhileRunning
  | .idle => inspectStore s addr
  | .halted => inspectStore s addr
  | .faulted _ => inspectStore s addr

end Sys2Proof.Machine
end

