-- ==== Sys2Proof/Machine/Run.lean ====
section
/-! DEFINITION. The run loop and how it ends (41_dispatch.md R61, 70_reset_and_hazards.md R94, R100). The loop is
unbounded, so it is given as what `k` steps of it do (notes/assumptions/14.md). -/
namespace Sys2Proof.Machine

open Sys2Proof

/-- Up to `k` steps of `Run()`: one step after another while RS is Running (R61). -/
def runSteps : Nat → State → State
  | 0, s => s
  | k + 1, s =>
    match s.rs with
    | .idle => s
    | .halted => s
    | .faulted _ => s
    | .running =>
      match step s with
      | .next t => runSteps k t
      | .fault _ => s
      | .refused _ => s

/-- How a run stands: ended in one of the two ways it can end, or not ended (R100). -/
inductive RunEnd where
  | halted
  | faulted (f : Fault)
  | notEnded
  deriving DecidableEq, Repr

/-- How a call of `run` stands in a state: what the host learns from its return (R100, R22). -/
def runEnd (s : State) : RunEnd :=
  match s.rs with
  | .idle => .notEnded
  | .running => .notEnded
  | .halted => .halted
  | .faulted f => .faulted f

/-- A session: host calls, the last of which starts the core, then up to `k` steps of it. -/
def session (calls : List HostCall) (k : Nat) (s : State) : Host.Outcome State Fault Refusal :=
  andThen (hostCalls calls s) fun t => .next (runSteps k t)

end Sys2Proof.Machine
end

