-- ==== Sys2Proof/Safety.lean ====
section
/-! DEFINITION. What claims mean by a sound state and by a safe run. -/
namespace Sys2Proof.Machine

open Sys2Proof

/-- The store's invariant: its canonical form, and no byte at or past MEM_SIZE (R24). -/
def State.sound (s : State) : Bool := s.mem.wf && s.mem.within (storeSize s.cfg)

/-- A store access at this address exists (R24). -/
def inStore (s : State) (a : Word) : Bool := decide (a.toNat < storeSize s.cfg)

/-- The core is running and the opcode byte at PC is this one (R62). -/
def State.fetches (s : State) (opcode : Byte) : Prop := s.rs = .running ∧ readByte s s.pc = .ok opcode

/-- No fault has been taken (R79, R84). -/
def State.faultFree (s : State) : Bool :=
  match s.rs with
  | .faulted _ => false
  | .idle => true
  | .running => true
  | .halted => true

/-- The one normal end of a run (R100): within `k` steps the core is Halted. -/
def haltsWithin (k : Nat) (s : State) : Prop := runEnd (runSteps k s) = .halted

/-- A run that goes on for ever (R100). -/
def neverEnds (s : State) : Prop := ∀ k, runEnd (runSteps k s) = .notEnded

end Sys2Proof.Machine
end

