-- ==== Sys2Proof/Certificates/Slice0/Obligations.lean ====
section
/-! DEFINITION. The statements for the provers. Each docstring says which rule of spec/ a statement formalises. Where a
clause says how a fault is entered, it rests on the spec's own decision D7 and on notes/assumptions/5.md, and where it says
that an address or PC wraps past 0xFFFF, on D4 or D6 and notes/assumptions/6.md. -/

open Sys2Proof Sys2Proof.Machine

/-! ### Encoding -/

/-- R42: the width table, mode by mode. -/
def Obligations.OperandWidthTable : Prop :=
  operandWidth .immediate = 1 ∧ operandWidth .zeroPage = 1 ∧ operandWidth .zeroPageX = 1 ∧
  operandWidth .zeroPageY = 1 ∧ operandWidth .indirectX = 1 ∧ operandWidth .indirectY = 1 ∧
  operandWidth .absolute = 2 ∧ operandWidth .absoluteX = 2 ∧ operandWidth .absoluteY = 2 ∧
  operandWidth .noneAddressing = 0

/-- R43 with the formats of R38: bytes written out from the encodings decode to the instruction they stand for. -/
def Obligations.WrittenOutWordsDecode : Prop :=
  decode [0b00000000] = .ok (.hlt, []) ∧
  decode [0b10101001, 0b00000101] = .ok (.ldaImm 0x05, []) ∧
  decode [0b10100101, 0b10000000] = .ok (.ldaZp 0x80, []) ∧
  decode [0b10110101, 0b11110000] = .ok (.ldaZpX 0xF0, []) ∧
  decode [0b10101101, 0b00000000, 0b11011110] = .ok (.ldaAbs 0xDE00, []) ∧
  decode [0b10111101, 0b00000000, 0b11011110] = .ok (.ldaAbsX 0xDE00, []) ∧
  decode [0b10111001, 0b00000000, 0b00100000] = .ok (.ldaAbsY 0x2000, []) ∧
  decode [0b10100001, 0b00000010] = .ok (.ldaIndX 0x02, []) ∧
  decode [0b10110001, 0b00000010] = .ok (.ldaIndY 0x02, []) ∧
  decode [0b10101010] = .ok (.tax, []) ∧
  decode [0b11101000] = .ok (.inx, []) ∧
  decode [0b11101010] = .ok (.nopUnlisted 0xEA, []) ∧
  decode [0b11111111] = .ok (.nopUnlisted 0xFF, [])

/-- Decoding the bytes of any well-formed instruction, with every operand at every value, gives it back, and leaves the
bytes after it (R37, R38, R43, R44). -/
def Obligations.DecodeOfEncode : Prop :=
  ∀ (i : Instr) (rest : List Byte), i.wf = true → decode (encode i ++ rest) = .ok (i, rest)

/-- What the decoder accepts is the bytes of a well-formed instruction and nothing else (R43 to R45): no two byte strings
mean one instruction. -/
def Obligations.EncodeOfDecode : Prop :=
  ∀ (bytes rest : List Byte) (i : Instr), decode bytes = .ok (i, rest) → i.wf = true ∧ bytes = encode i ++ rest

/-- R45, R37: every opcode byte decodes, to one instruction of length `1 + W(mode)`, once its operand bytes are there. The
second clause, that a list with fewer bytes is rejected with `missingOperand`, is the model's choice and no rule's (DESIGN
CHOICE, log entry 13): the spec says nothing of a list that ends early. -/
def Obligations.DecodingIsTotalOnOpcodes : Prop :=
  ∀ (opcode : Byte) (rest : List Byte),
    (operandCount opcode ≤ rest.length →
      ∃ i, decode (opcode :: rest) = .ok (i, rest.drop (operandCount opcode)) ∧ i.length = 1 + operandCount opcode) ∧
    (rest.length < operandCount opcode → decode (opcode :: rest) = .error (.missingOperand opcode))

/-- R44: a byte that R43 does not list is a one-byte no-op that consumes nothing after it, and there are 245 of them. -/
def Obligations.UnlistedBytesAreOneByteNoOps : Prop :=
  (∀ (opcode : Byte) (rest : List Byte), opcode ∉ listedOpcodes →
    decode (opcode :: rest) = .ok (.nopUnlisted opcode, rest)) ∧
  ((List.range 256).filter fun n => !listedOpcodes.contains (BitVec.ofNat 8 n)).length = 245

/-! ### Flags -/

/-- R18: Z is whether the result is zero, N is its top bit, every other bit is kept, and Z and N are never both 1 after. It is
applied once by each flag-updating instruction that completes, to the value it has written, and by no other. -/
def Obligations.UpdateZNSetsZeroAndNegativeOnly : Prop :=
  (∀ (v p : Byte),
    updateZN v p =
      ((p &&& 0x7D) ||| ((if v.getLsbD 7 then (1 : Byte) else 0) <<< 7) ||| ((if v = 0 then (1 : Byte) else 0) <<< 1)) ∧
    zeroFlag (updateZN v p) = decide (v = 0) ∧
    negativeFlag (updateZN v p) = v.getLsbD 7 ∧
    (∀ i, i ≠ 1 → i ≠ 7 → (updateZN v p).getLsbD i = p.getLsbD i) ∧
    ¬ (zeroFlag (updateZN v p) = true ∧ negativeFlag (updateZN v p) = true)) ∧
  (∀ (i : Instr) (s t : State), i.mode ≠ .noneAddressing → exec i s = .next t →
    t.p = updateZN t.a s.p ∨ ∃ f, t = takeFault f s) ∧
  (∀ (i : Instr) (s t : State), i = .tax ∨ i = .inx → exec i s = .next t → t.p = updateZN t.x s.p) ∧
  (∀ (i : Instr) (s t : State), (i = .hlt ∨ ∃ opcode, i = .nopUnlisted opcode) → exec i s = .next t → t.p = s.p)

/-! ### Memory -/

/-- R28 with R24: a byte read answers the stored byte below MEM_SIZE and raises OutOfBounds at or past it; only 0xFFFF,
and only with the store of 65535 bytes, is past it. -/
def Obligations.ReadByteAnswersBelowTheStoreSize : Prop :=
  ∀ (s : State) (a : Word),
    (a.toNat < storeSize s.cfg → readByte s a = .ok (s.mem.read a.toNat)) ∧
    (storeSize s.cfg ≤ a.toNat → readByte s a = .error (.outOfBounds a.toNat .read)) ∧
    (storeSize s.cfg ≤ a.toNat ↔ s.cfg.memSize = .bytes65535 ∧ a = 0xFFFF)

/-- R29 and R25: a word is the byte at `a` below and the byte at `a + 1` above; its fault is the first byte's that has one.
The wrap of `a + 1` and the order are decisions D4 and D5. -/
def Obligations.ReadWordIsLittleEndian : Prop :=
  ∀ (s : State) (a : Word),
    (∀ lo hi, readByte s a = .ok lo → readByte s (a + 1) = .ok hi →
      ∃ w, readWord s a = .ok w ∧ w.extractLsb' 0 8 = lo ∧ w.extractLsb' 8 8 = hi) ∧
    (∀ f, readByte s a = .error f → readWord s a = .error f) ∧
    (∀ lo f, readByte s a = .ok lo → readByte s (a + 1) = .error f → readWord s a = .error f)

/-- R30 with R34: a byte write below MEM_SIZE is read back, leaves every other byte, every register and the run state as
they were, and keeps the store sound; at or past MEM_SIZE it raises OutOfBounds. -/
def Obligations.WriteByteIsReadBack : Prop :=
  ∀ (s : State) (a : Word) (v : Byte), s.sound = true →
    (a.toNat < storeSize s.cfg →
      ∃ t, writeByte s a v = .ok t ∧ t.sound = true ∧ t = { s with mem := t.mem } ∧ t.mem.read a.toNat = v ∧
        ∀ b, b ≠ a.toNat → t.mem.read b = s.mem.read b) ∧
    (storeSize s.cfg ≤ a.toNat → writeByte s a v = .error (.outOfBounds a.toNat .write))

/-- R31: a word write puts the low byte at `a` and the high byte at `a + 1`, and a word read there gives it back. The wrap
of `a + 1` is decision D4. -/
def Obligations.WriteWordIsReadBack : Prop :=
  ∀ (s : State) (a w : Word), s.sound = true → inStore s a = true → inStore s (a + 1) = true →
    ∃ t, writeWord s a w = .ok t ∧ readWord t a = .ok w ∧ t.mem.read a.toNat = (w.extractLsb' 0 8) ∧
      t.mem.read (a + 1).toNat = (w.extractLsb' 8 8) ∧
      ∀ b, b ≠ a.toNat → b ≠ (a + 1).toNat → t.mem.read b = s.mem.read b

/-! ### The resolver -/

/-- R51 to R54: Immediate is PC itself; the zero-page modes add their index modulo 256 to the byte at PC, stay in the zero
page, and raise the fault of that one read. -/
def Obligations.ZeroPageModesResolve : Prop :=
  ∀ (s : State),
    resolve s .immediate = .ok s.pc ∧
    (∀ b, readByte s s.pc = .ok b →
      (∃ ea, resolve s .zeroPage = .ok ea ∧ ea.toNat = b.toNat) ∧
      (∃ ea, resolve s .zeroPageX = .ok ea ∧ ea.toNat = (b.toNat + s.x.toNat) % 256) ∧
      (∃ ea, resolve s .zeroPageY = .ok ea ∧ ea.toNat = (b.toNat + s.y.toNat) % 256)) ∧
    (∀ f, readByte s s.pc = .error f →
      resolve s .zeroPage = .error f ∧ resolve s .zeroPageX = .error f ∧ resolve s .zeroPageY = .error f)

/-- R55 to R57: the absolute modes add their index modulo 65536 to the little-endian word at PC. -/
def Obligations.AbsoluteModesResolve : Prop :=
  ∀ (s : State),
    (∀ w, readWord s s.pc = .ok w →
      resolve s .absolute = .ok w ∧
      (∃ ea, resolve s .absoluteX = .ok ea ∧ ea.toNat = (w.toNat + s.x.toNat) % 65536) ∧
      (∃ ea, resolve s .absoluteY = .ok ea ∧ ea.toNat = (w.toNat + s.y.toNat) % 65536)) ∧
    (∀ f, readWord s s.pc = .error f →
      resolve s .absolute = .error f ∧ resolve s .absoluteX = .error f ∧ resolve s .absoluteY = .error f)

/-- R58 and R59: the pointer's two bytes are read within the zero page, X is added to the pointer's address modulo 256, Y
to its value modulo 65536; only the operand read can fault. -/
def Obligations.IndirectModesResolve : Prop :=
  ∀ (s : State),
    (∀ b, readByte s s.pc = .ok b →
      (∃ ea, resolve s .indirectX = .ok ea ∧
        ea.toNat = 256 * (s.mem.read ((b.toNat + s.x.toNat + 1) % 256)).toNat +
          (s.mem.read ((b.toNat + s.x.toNat) % 256)).toNat) ∧
      (∃ ea, resolve s .indirectY = .ok ea ∧
        ea.toNat = (256 * (s.mem.read ((b.toNat + 1) % 256)).toNat + (s.mem.read b.toNat).toNat + s.y.toNat) % 65536)) ∧
    (∀ f, readByte s s.pc = .error f → resolve s .indirectX = .error f ∧ resolve s .indirectY = .error f)

/-- R60 and R81: resolving the sentinel raises InternalDefect, and it is the one mode that ever does. -/
def Obligations.OnlyTheSentinelIsAnInternalDefect : Prop :=
  ∀ (s : State) (mode m : Mode),
    resolve s mode = .error (.internalDefect m) ↔ mode = .noneAddressing ∧ m = .noneAddressing

/-! ### Load-A -/

/-- R69: LDA immediate, run on its operand and as a step; its operand read is its data read. -/
def Obligations.LdaImmediateLoadsItsOperand : Prop :=
  (∀ (imm : Byte) (s : State),
    exec (.ldaImm imm) s = .next { s with a := imm, p := updateZN imm s.p, pc := s.pc + 1 }) ∧
  (∀ (s : State) (imm : Byte), s.fetches 0xA9 → readByte s (s.pc + 1) = .ok imm →
    step s = .next { s with a := imm, p := updateZN imm s.p, pc := s.pc + 2 }) ∧
  (∀ (s : State) (f : Fault), s.fetches 0xA9 → readByte s (s.pc + 1) = .error f →
    step s = .next { s with pc := s.pc + 1, rs := .faulted f })

/-- R70: LDA zero page. It never faults on its data. -/
def Obligations.LdaZeroPageLoadsTheZeroPageByte : Prop :=
  (∀ (zp : Byte) (s : State),
    exec (.ldaZp zp) s =
      .next { s with a := s.mem.read zp.toNat, p := updateZN (s.mem.read zp.toNat) s.p, pc := s.pc + 1 }) ∧
  (∀ (s : State) (zp : Byte), s.fetches 0xA5 → readByte s (s.pc + 1) = .ok zp →
    step s = .next { s with a := s.mem.read zp.toNat, p := updateZN (s.mem.read zp.toNat) s.p, pc := s.pc + 2 }) ∧
  (∀ (s : State) (f : Fault), s.fetches 0xA5 → readByte s (s.pc + 1) = .error f →
    step s = .next { s with pc := s.pc + 1, rs := .faulted f })

/-- R71: LDA zero page X. The address is `zp + X` modulo 256, so it never faults on its data. -/
def Obligations.LdaZeroPageXWrapsInTheZeroPage : Prop :=
  (∀ (zp : Byte) (s : State) (v : Byte), v = s.mem.read ((zp.toNat + s.x.toNat) % 256) →
    exec (.ldaZpX zp) s = .next { s with a := v, p := updateZN v s.p, pc := s.pc + 1 }) ∧
  (∀ (s : State) (zp v : Byte), s.fetches 0xB5 → readByte s (s.pc + 1) = .ok zp →
    v = s.mem.read ((zp.toNat + s.x.toNat) % 256) →
    step s = .next { s with a := v, p := updateZN v s.p, pc := s.pc + 2 }) ∧
  (∀ (s : State) (f : Fault), s.fetches 0xB5 → readByte s (s.pc + 1) = .error f →
    step s = .next { s with pc := s.pc + 1, rs := .faulted f })

/-- R72: LDA absolute: it loads the byte at its address, or takes the data read's fault with nothing written. -/
def Obligations.LdaAbsoluteLoadsOrFaults : Prop :=
  (∀ (base : Word) (s : State) (v : Byte), readByte s base = .ok v →
    exec (.ldaAbs base) s = .next { s with a := v, p := updateZN v s.p, pc := s.pc + 2 }) ∧
  (∀ (base : Word) (s : State) (f : Fault), readByte s base = .error f →
    exec (.ldaAbs base) s = .next { s with rs := .faulted f }) ∧
  (∀ (s : State) (base : Word) (v : Byte), s.fetches 0xAD → readWord s (s.pc + 1) = .ok base →
    readByte s base = .ok v →
    step s = .next { s with a := v, p := updateZN v s.p, pc := s.pc + 3 }) ∧
  (∀ (s : State) (f : Fault), s.fetches 0xAD →
    (readWord s (s.pc + 1) = .error f ∨ ∃ base, readWord s (s.pc + 1) = .ok base ∧ readByte s base = .error f) →
    step s = .next { s with pc := s.pc + 1, rs := .faulted f })

/-- R73: LDA absolute X: as LDA absolute, at `base + X` modulo 65536. -/
def Obligations.LdaAbsoluteXLoadsOrFaults : Prop :=
  (∀ (base ea : Word) (s : State) (v : Byte), ea.toNat = (base.toNat + s.x.toNat) % 65536 → readByte s ea = .ok v →
    exec (.ldaAbsX base) s = .next { s with a := v, p := updateZN v s.p, pc := s.pc + 2 }) ∧
  (∀ (base ea : Word) (s : State) (f : Fault), ea.toNat = (base.toNat + s.x.toNat) % 65536 → readByte s ea = .error f →
    exec (.ldaAbsX base) s = .next { s with rs := .faulted f }) ∧
  (∀ (s : State) (base ea : Word) (v : Byte), s.fetches 0xBD → readWord s (s.pc + 1) = .ok base →
    ea.toNat = (base.toNat + s.x.toNat) % 65536 → readByte s ea = .ok v →
    step s = .next { s with a := v, p := updateZN v s.p, pc := s.pc + 3 }) ∧
  (∀ (s : State) (f : Fault), s.fetches 0xBD →
    (readWord s (s.pc + 1) = .error f ∨
      ∃ base ea, readWord s (s.pc + 1) = .ok base ∧ ea.toNat = (base.toNat + s.x.toNat) % 65536 ∧
        readByte s ea = .error f) →
    step s = .next { s with pc := s.pc + 1, rs := .faulted f })

/-- R74: LDA absolute Y: as LDA absolute, at `base + Y` modulo 65536. -/
def Obligations.LdaAbsoluteYLoadsOrFaults : Prop :=
  (∀ (base ea : Word) (s : State) (v : Byte), ea.toNat = (base.toNat + s.y.toNat) % 65536 → readByte s ea = .ok v →
    exec (.ldaAbsY base) s = .next { s with a := v, p := updateZN v s.p, pc := s.pc + 2 }) ∧
  (∀ (base ea : Word) (s : State) (f : Fault), ea.toNat = (base.toNat + s.y.toNat) % 65536 → readByte s ea = .error f →
    exec (.ldaAbsY base) s = .next { s with rs := .faulted f }) ∧
  (∀ (s : State) (base ea : Word) (v : Byte), s.fetches 0xB9 → readWord s (s.pc + 1) = .ok base →
    ea.toNat = (base.toNat + s.y.toNat) % 65536 → readByte s ea = .ok v →
    step s = .next { s with a := v, p := updateZN v s.p, pc := s.pc + 3 }) ∧
  (∀ (s : State) (f : Fault), s.fetches 0xB9 →
    (readWord s (s.pc + 1) = .error f ∨
      ∃ base ea, readWord s (s.pc + 1) = .ok base ∧ ea.toNat = (base.toNat + s.y.toNat) % 65536 ∧
        readByte s ea = .error f) →
    step s = .next { s with pc := s.pc + 1, rs := .faulted f })

/-- R75: LDA (zp,X): the pointer at `zp + X`, both bytes within the zero page, says where the data is; the operand advance
is left out when OMIT_ADVANCE_OPCODE is 0xA1. -/
def Obligations.LdaIndirectXLoadsOrFaults : Prop :=
  (∀ (zp : Byte) (ea : Word) (s : State) (v : Byte),
    ea.toNat = 256 * (s.mem.read ((zp.toNat + s.x.toNat + 1) % 256)).toNat +
      (s.mem.read ((zp.toNat + s.x.toNat) % 256)).toNat →
    readByte s ea = .ok v →
    exec (.ldaIndX zp) s =
      .next { s with a := v, p := updateZN v s.p, pc := if s.cfg.omitAdvance = .opcodeA1 then s.pc else s.pc + 1 }) ∧
  (∀ (zp : Byte) (ea : Word) (s : State) (f : Fault),
    ea.toNat = 256 * (s.mem.read ((zp.toNat + s.x.toNat + 1) % 256)).toNat +
      (s.mem.read ((zp.toNat + s.x.toNat) % 256)).toNat →
    readByte s ea = .error f →
    exec (.ldaIndX zp) s = .next { s with rs := .faulted f }) ∧
  (∀ (s : State) (zp : Byte) (ea : Word) (v : Byte), s.fetches 0xA1 → readByte s (s.pc + 1) = .ok zp →
    ea.toNat = 256 * (s.mem.read ((zp.toNat + s.x.toNat + 1) % 256)).toNat +
      (s.mem.read ((zp.toNat + s.x.toNat) % 256)).toNat →
    readByte s ea = .ok v →
    step s = .next { s with a := v, p := updateZN v s.p,
                            pc := if s.cfg.omitAdvance = .opcodeA1 then s.pc + 1 else s.pc + 2 }) ∧
  (∀ (s : State) (f : Fault), s.fetches 0xA1 →
    (readByte s (s.pc + 1) = .error f ∨
      ∃ zp ea, readByte s (s.pc + 1) = .ok zp ∧
        ea.toNat = 256 * (s.mem.read ((zp.toNat + s.x.toNat + 1) % 256)).toNat +
          (s.mem.read ((zp.toNat + s.x.toNat) % 256)).toNat ∧
        readByte s ea = .error f) →
    step s = .next { s with pc := s.pc + 1, rs := .faulted f })

/-- R76: LDA (zp),Y: the pointer at `zp`, both bytes within the zero page, plus Y modulo 65536, says where the data is; the
operand advance is left out when OMIT_ADVANCE_OPCODE is 0xB1. -/
def Obligations.LdaIndirectYLoadsOrFaults : Prop :=
  (∀ (zp : Byte) (ea : Word) (s : State) (v : Byte),
    ea.toNat = (256 * (s.mem.read ((zp.toNat + 1) % 256)).toNat + (s.mem.read zp.toNat).toNat + s.y.toNat) % 65536 →
    readByte s ea = .ok v →
    exec (.ldaIndY zp) s =
      .next { s with a := v, p := updateZN v s.p, pc := if s.cfg.omitAdvance = .opcodeB1 then s.pc else s.pc + 1 }) ∧
  (∀ (zp : Byte) (ea : Word) (s : State) (f : Fault),
    ea.toNat = (256 * (s.mem.read ((zp.toNat + 1) % 256)).toNat + (s.mem.read zp.toNat).toNat + s.y.toNat) % 65536 →
    readByte s ea = .error f →
    exec (.ldaIndY zp) s = .next { s with rs := .faulted f }) ∧
  (∀ (s : State) (zp : Byte) (ea : Word) (v : Byte), s.fetches 0xB1 → readByte s (s.pc + 1) = .ok zp →
    ea.toNat = (256 * (s.mem.read ((zp.toNat + 1) % 256)).toNat + (s.mem.read zp.toNat).toNat + s.y.toNat) % 65536 →
    readByte s ea = .ok v →
    step s = .next { s with a := v, p := updateZN v s.p,
                            pc := if s.cfg.omitAdvance = .opcodeB1 then s.pc + 1 else s.pc + 2 }) ∧
  (∀ (s : State) (f : Fault), s.fetches 0xB1 →
    (readByte s (s.pc + 1) = .error f ∨
      ∃ zp ea, readByte s (s.pc + 1) = .ok zp ∧
        ea.toNat = (256 * (s.mem.read ((zp.toNat + 1) % 256)).toNat + (s.mem.read zp.toNat).toNat + s.y.toNat) % 65536 ∧
        readByte s ea = .error f) →
    step s = .next { s with pc := s.pc + 1, rs := .faulted f })

/-- The frame of the eight Load-A forms (42_load.md, R15): whatever the operand and whether the data read faults, X, Y, the
parameters, the unused status bits and every byte of memory stay, and a load that does not fault leaves the run state; one
that faults leaves A, P and PC too. -/
def Obligations.LoadFrame : Prop :=
  ∀ (i : Instr) (s t : State), i.mode ≠ .noneAddressing → exec i s = .next t →
    t.x = s.x ∧ t.y = s.y ∧ t.cfg = s.cfg ∧ unusedBits t.p = unusedBits s.p ∧
    (∀ a, readByte t a = readByte s a) ∧
    (t.rs = s.rs ∨ ∃ f, t.rs = .faulted f ∧ t.a = s.a ∧ t.p = s.p ∧ t.pc = s.pc)

/-! ### Register instructions, Halt and the unlisted opcodes -/

/-- R77: TAX sets X to A and the flags from it, in a step that raises nothing once its opcode is fetched. -/
def Obligations.TaxCopiesAToX : Prop :=
  (∀ s : State, exec .tax s = .next { s with x := s.a, p := updateZN s.a s.p }) ∧
  (∀ s : State, s.fetches 0xAA → step s = .next { s with x := s.a, p := updateZN s.a s.p, pc := s.pc + 1 })

/-- R78: INX adds 1 to X modulo 256 and sets the flags from the new X: 0xFF gives 0x00 and Z, 0x7F gives 0x80 and N. -/
def Obligations.InxIncrementsX : Prop :=
  (∀ s : State, exec .inx s = .next { s with x := s.x + 1, p := updateZN (s.x + 1) s.p }) ∧
  (∀ s : State, s.fetches 0xE8 → step s = .next { s with x := s.x + 1, p := updateZN (s.x + 1) s.p, pc := s.pc + 1 }) ∧
  (∀ s t : State, exec .inx s = .next t →
    t.x.toNat = (s.x.toNat + 1) % 256 ∧ zeroFlag t.p = decide (s.x = 0xFF) ∧
    negativeFlag t.p = decide (0x7F ≤ s.x.toNat ∧ s.x.toNat < 0xFF))

/-- R64: HLT makes the run state Halted and changes nothing else but the fetch advance of PC. -/
def Obligations.HltHaltsAndChangesNothingElse : Prop :=
  (∀ s : State, exec .hlt s = .next { s with rs := .halted }) ∧
  (∀ s : State, s.fetches 0x00 → step s = .next { s with pc := s.pc + 1, rs := .halted })

/-- R65: an unlisted opcode changes nothing but the fetch advance of PC, whatever bytes follow it. -/
def Obligations.UnlistedOpcodeOnlyAdvancesPc : Prop :=
  (∀ (opcode : Byte) (s : State), exec (.nopUnlisted opcode) s = .next s) ∧
  (∀ (opcode : Byte) (s : State), opcode ∉ listedOpcodes → s.fetches opcode →
    step s = .next { s with pc := s.pc + 1 })

/-- The frame of the instructions that use no operand (R15): TAX and INX leave A, Y, PC, the run state, the parameters, the
unused status bits and every byte of memory; HLT leaves everything but the run state; an unlisted opcode everything. -/
def Obligations.ImpliedFrame : Prop :=
  ∀ (i : Instr) (s t : State), i.mode = .noneAddressing → exec i s = .next t →
    t.a = s.a ∧ t.y = s.y ∧ t.pc = s.pc ∧ t.cfg = s.cfg ∧ unusedBits t.p = unusedBits s.p ∧
    (∀ a, readByte t a = readByte s a) ∧
    (i = .hlt ∨ t.rs = s.rs) ∧ (i = .tax ∨ i = .inx ∨ (t.x = s.x ∧ t.p = s.p))

/-! ### The step -/

/-- R62, R63: when the bytes at PC can be read and decode to an instruction, a step of a running core is that instruction's
meaning in the state whose PC is one past the opcode, and nothing else. -/
def Obligations.StepRunsTheDecodedInstruction : Prop :=
  ∀ (s : State) (bytes rest : List Byte) (i : Instr), s.rs = .running →
    readBytes s s.pc bytes.length = .ok bytes → decode bytes = .ok (i, rest) →
    i.wf = true ∧ step s = exec i { s with pc := s.pc + 1 }

/-- R62 with R84 (entry to Faulted: decision D7, log entry 5): an opcode fetch past the store leaves PC at the opcode and
every register and byte as they were. -/
def Obligations.OpcodeFetchFaultLeavesPc : Prop :=
  ∀ s : State, s.rs = .running → s.cfg.memSize = .bytes65535 → s.pc = 0xFFFF →
    step s = .next { s with rs := .faulted (.outOfBounds 0xFFFF .read) }

/-- R79: no instruction has an error of its own. A step of a running core always has a next state: it never stops and is
never refused. -/
def Obligations.RunningCoreAlwaysSteps : Prop :=
  ∀ s : State, s.rs = .running → ∃ t, step s = .next t

/-- The step is the dispatcher of R62 and R63 as the spec writes it: the opcode byte alone is decoded, the resolver of R50
reads the operand from memory at PC, and the accesses and their faults come in the order of R66 (D19). -/
def Obligations.StepIsTheWrittenDispatcher : Prop :=
  ∀ s : State, s.rs = .running → step s = .next (pseudoStep s)

/-- R84, R80, R83 (decision D7, log entry 5): every fault a step takes is OutOfBounds(0xFFFF, read) with the store of 65535
bytes; it leaves A, X, Y, P, memory and the parameters, with PC at the opcode for a fetch fault and one past it else. -/
def Obligations.FaultsArePrecise : Prop :=
  ∀ (s t : State) (f : Fault), s.rs = .running → step s = .next t → t.rs = .faulted f →
    f = .outOfBounds 0xFFFF .read ∧ s.cfg.memSize = .bytes65535 ∧
    ((s.pc = 0xFFFF ∧ t = { s with rs := .faulted f }) ∨
     (s.pc ≠ 0xFFFF ∧ t = { s with pc := s.pc + 1, rs := .faulted f }))

/-- R64 and R100: a step halts exactly when the opcode byte it fetches is 0x00. -/
def Obligations.HaltedOnlyByOpcodeZero : Prop :=
  ∀ s t : State, s.rs = .running → step s = .next t → (t.rs = .halted ↔ readByte s s.pc = .ok 0x00)

/-- R68, R67: a step that leaves the core running moves PC forward by 1, 2 or 3 modulo 65536, and by no other amount. -/
def Obligations.PcAdvancesByOneTwoOrThree : Prop :=
  ∀ s t : State, s.rs = .running → step s = .next t → t.rs = .running →
    t.pc = s.pc + 1 ∨ t.pc = s.pc + 2 ∨ t.pc = s.pc + 3

/-- R15, R9 to R11, R14, R36: what a step may write. Memory, Y, the parameters and the unused status bits never change; A
changes only under a Load-A opcode, X only under TAX or INX, the flags only under one of those ten. -/
def Obligations.StepWritesOnlyWhatItsOpcodeWrites : Prop :=
  ∀ (s t : State), s.rs = .running → step s = .next t →
    t.mem = s.mem ∧ t.y = s.y ∧ t.cfg = s.cfg ∧ unusedBits t.p = unusedBits s.p ∧
    (t.a ≠ s.a → ∃ op ∈ ([0xA9, 0xA5, 0xB5, 0xAD, 0xBD, 0xB9, 0xA1, 0xB1] : List Byte), readByte s s.pc = .ok op) ∧
    (t.x ≠ s.x → readByte s s.pc = .ok 0xAA ∨ readByte s s.pc = .ok 0xE8) ∧
    (t.p ≠ s.p → ∃ op ∈ ([0xA9, 0xA5, 0xB5, 0xAD, 0xBD, 0xB9, 0xA1, 0xB1, 0xAA, 0xE8] : List Byte),
      readByte s s.pc = .ok op)

/-- R16, R17, R14: nothing reads the status byte. Two states that differ in P alone step to states that differ in P alone. -/
def Obligations.StatusByteInfluencesOnlyItself : Prop :=
  ∀ (s t : State) (q : Byte), step s = .next t → ∃ r, step { s with p := q } = .next { t with p := r }

/-- R15, R50: of memory, an instruction depends on the bytes it is given to read. Two running states with the same registers
and parameters whose stores agree at every address step alike, but for the stores themselves. -/
def Obligations.StepDependsOnReadableBytesOnly : Prop :=
  ∀ (s : State) (m : Memory), s.rs = .running → (∀ a, a < storeSize s.cfg → m.read a = s.mem.read a) →
    ∀ t, step s = .next t → step { s with mem := m } = .next { t with mem := m }

/-- R19, R90, R85 (log entries 5 and 8): an idle or halted core stays as it is until the host calls, and a faulted one runs
no instruction and has stopped with its fault. -/
def Obligations.StoppedCoreRunsNothing : Prop :=
  (∀ s : State, s.rs = .idle ∨ s.rs = .halted → step s = .next s) ∧
  (∀ (s : State) (f : Fault), s.rs = .faulted f → step s = .fault f) ∧
  (∀ (s : State) (k : Nat), s.rs ≠ .running → runSteps k s = s)

/-! ### Runs -/

/-- R68, the bound the spec derives: with the store of 65535 bytes, and whatever OMIT_ADVANCE_OPCODE is, a run from PC = p
has halted or faulted within `0x10000 - p` steps. -/
def Obligations.EveryRunEndsInTheReferenceStore : Prop :=
  ∀ s : State, s.rs = .running → s.cfg.memSize = .bytes65535 →
    runEnd (runSteps (0x10000 - s.pc.toNat) s) ≠ .notEnded

/-- R68 and R100: with the store of 65536 bytes, a run over a memory that holds no 0x00 byte never ends. -/
def Obligations.RunWithoutHaltByteNeverEnds : Prop :=
  ∀ s : State, s.rs = .running → s.cfg.memSize = .bytes65536 → (∀ a, a < 65536 → s.mem.read a ≠ 0x00) →
    neverEnds s

/-- R100, R64: a run that has ended Halted has 0x00 as the byte before its PC, whatever it did before. -/
def Obligations.HaltedRunStandsPastAZeroByte : Prop :=
  ∀ (s : State) (k : Nat), s.rs = .running → haltsWithin k s →
    readByte (runSteps k s) ((runSteps k s).pc - 1) = .ok 0x00

/-! ### Reset and the host -/

/-- R92, R21 (RS: decision D12): `reset` on a core that is idle or halted zeroes A, X and all of P, loads PC from the vector,
makes the run state Idle, and leaves Y, memory and the parameters; it never faults. -/
def Obligations.HostResetZeroesAndLoadsTheVector : Prop :=
  ∀ s : State, s.rs = .idle ∨ s.rs = .halted →
    ∃ t, hostReset s = .next t ∧ t.a = 0x00 ∧ t.x = 0x00 ∧ t.p = 0x00 ∧ t.y = s.y ∧ t.mem = s.mem ∧ t.cfg = s.cfg ∧
      t.rs = .idle ∧ readWord s 0xFFFC = .ok t.pc

/-- R91, R92: the model's reset state is what `reset` leaves of a power-on with the launch values that log entries 3 and 4
choose; the spec's part is A = X = P = 0, RS = Idle and PC from the vector, whatever the launch values and parameters. -/
def Obligations.ResetStateIsResetOfPowerOn : Prop :=
  hostReset (powerOn Config.default Launch.zero) = .next State.reset ∧
  ∀ (c : Config) (l : Launch), ∃ t, hostReset (powerOn c l) = .next t ∧ t.a = 0x00 ∧ t.x = 0x00 ∧ t.p = 0x00 ∧
    t.y = l.y0 ∧ t.mem = l.mem0 ∧ t.cfg = c ∧ t.rs = .idle ∧
    t.pc.toNat = 256 * (l.mem0.read 0xFFFD).toNat + (l.mem0.read 0xFFFC).toNat

/-- R93 (write order: decision D13): an image that fits is stored from 0x8000, the vector then holds 0x8000, nothing else
changes, and the store stays sound. -/
def Obligations.LoadStoresAnImageThatFits : Prop :=
  ∀ (img : List Byte) (s : State), s.sound = true → s.rs = .idle ∨ s.rs = .halted →
    0x8000 + img.length ≤ storeSize s.cfg →
    ∃ t, hostLoad img s = .next t ∧ t = { s with mem := t.mem } ∧ t.sound = true ∧
      ∀ a, t.mem.read a =
        if a = 0xFFFC then 0x00
        else if a = 0xFFFD then 0x80
        else if 0x8000 ≤ a ∧ a < 0x8000 + img.length then img.getD (a - 0x8000) 0x00
        else s.mem.read a

/-- R93 (decision D13, log entry 15): an image that does not fit faults at its first byte outside the store; the bytes
before it stay written, the vector is not written, and nothing else changes. -/
def Obligations.LoadOfAnOverlongImageFaults : Prop :=
  ∀ (img : List Byte) (s : State), s.sound = true → s.rs = .idle ∨ s.rs = .halted →
    storeSize s.cfg < 0x8000 + img.length →
    ∃ t, hostLoad img s = .next t ∧
      t = { s with mem := t.mem, rs := .faulted (.outOfBounds (storeSize s.cfg) .write) } ∧ t.sound = true ∧
      ∀ a, t.mem.read a =
        if 0x8000 ≤ a ∧ a < storeSize s.cfg then img.getD (a - 0x8000) 0x00 else s.mem.read a

/-- R94 (re-entry after a halt: decision D12, log entry 16): `run` makes the run state Running and changes nothing else, so
the core goes on from the PC it has. It is `run` up to its first step (the model's choice, log entry 14); the steps are
`runSteps`'. -/
def Obligations.HostRunStartsAtTheCurrentPc : Prop :=
  ∀ s : State, s.rs = .idle ∨ s.rs = .halted → hostRun s = .next { s with rs := .running }

/-- R95 with R92 to R94: `load_and_run` of an image that fits starts a core at 0x8000 with A, X and P zero, Y kept and
memory as `load` leaves it, whatever was seeded into A, X, P or PC before; of one that does not fit, it gives what `load`
gives. Three parts are not R95's own words. That an image which does not fit faults in `load` is decision D13 (log entry 15).
That `reset` of a halted core makes it idle, and `run` of one is allowed, is decision D12 (log entry 16). That the call
answers a RUNNING core, as `run` leaves it before its first step, is the model's choice (log entries 14 and 16): the spec's
call returns when the run has ended Halted or Faulted, and here the steps are `runSteps`'. -/
def Obligations.LoadAndRunStartsAtTheLoadOrigin : Prop :=
  ∀ (img : List Byte) (s : State), s.sound = true → s.rs = .idle ∨ s.rs = .halted →
    (0x8000 + img.length ≤ storeSize s.cfg →
      ∃ t u, hostLoad img s = .next u ∧ hostLoadAndRun img s = .next t ∧ t.pc = 0x8000 ∧ t.a = 0x00 ∧ t.x = 0x00 ∧
        t.p = 0x00 ∧ t.y = s.y ∧ t.mem = u.mem ∧ t.cfg = s.cfg ∧ t.rs = .running) ∧
    (storeSize s.cfg < 0x8000 + img.length → hostLoadAndRun img s = hostLoad img s)

/-- R96: seeding writes the one register or byte named and nothing else while the core is idle or halted; a byte past the
store faults the core; seeding a faulted core is refused, and so is every call while the core runs (D11, log entry 9). -/
def Obligations.HostSeedingWritesWhatItNames : Prop :=
  (∀ s : State, s.rs = .idle ∨ s.rs = .halted →
    (∀ v, hostSeed (.a v) s = .next { s with a := v }) ∧ (∀ v, hostSeed (.x v) s = .next { s with x := v }) ∧
    (∀ v, hostSeed (.y v) s = .next { s with y := v }) ∧ (∀ v, hostSeed (.p v) s = .next { s with p := v }) ∧
    (∀ v, hostSeed (.pc v) s = .next { s with pc := v }) ∧
    (∀ a v, inStore s a = true → ∃ t, writeByte s a v = .ok t ∧ hostSeed (.byte a v) s = .next t) ∧
    (∀ a v, inStore s a = false →
      hostSeed (.byte a v) s = .next { s with rs := .faulted (.outOfBounds a.toNat .write) })) ∧
  (∀ (s : State) (f : Fault) (sd : Seed), s.rs = .faulted f → hostSeed sd s = .refused .seedingFaultedCore) ∧
  (∀ (s : State) (c : HostCall), s.rs = .running → hostCall c s = .refused .hostCallWhileRunning)

/-- R85 (decision D7): on a faulted core `load`, `reset`, `run` and `load_and_run` do nothing; the fault is never cleared. -/
def Obligations.HostCannotClearAFault : Prop :=
  (∀ (s : State) (f : Fault) (img : List Byte), s.rs = .faulted f →
    hostLoad img s = .next s ∧ hostReset s = .next s ∧ hostRun s = .next s ∧ hostLoadAndRun img s = .next s) ∧
  (∀ (s t : State) (f : Fault) (calls : List HostCall), s.rs = .faulted f → hostCalls calls s = .next t → t = s)

/-- R22, R96: while the core is not running the host sees every register and every byte of the store; a byte past its end
is refused, and the core does not change by being looked at. -/
def Obligations.HostSeesRegistersAndStore : Prop :=
  ∀ s : State, s.rs ≠ .running →
    inspectRegisters s = .ok { a := s.a, x := s.x, y := s.y, p := s.p, pc := s.pc } ∧
    ∀ a : Word, (inStore s a = true → inspectByte s a = .ok (s.mem.read a.toNat)) ∧
      (inStore s a = false → inspectByte s a = .error (.hostReadBeyondStore a.toNat))

/-! ### Invariants of the whole system -/

/-- R24: the store's canonical form and bound hold at reset (the contents are log entry 4's). -/
def Obligations.ResetStateIsSound : Prop := State.reset.sound = true

/-- R24, R20: every step and every host call keeps the store sound, and no step and no call writes the parameters (R4). -/
def Obligations.StoreStaysSound : Prop :=
  (∀ s t : State, s.sound = true → step s = .next t → t.sound = true ∧ t.cfg = s.cfg) ∧
  (∀ (c : HostCall) (s t : State), s.sound = true → hostCall c s = .next t → t.sound = true ∧ t.cfg = s.cfg) ∧
  (∀ (calls : List HostCall) (k : Nat) (s t : State), s.sound = true → session calls k s = .next t →
    t.sound = true ∧ t.cfg = s.cfg)

/-- R81: no session, whatever the host calls, the memory and the number of steps, takes InternalDefect. -/
def Obligations.InternalDefectIsNeverTaken : Prop :=
  ∀ (calls : List HostCall) (k : Nat) (s t : State) (m : Mode), s.rs ≠ .faulted (.internalDefect m) →
    session calls k s = .next t → t.rs ≠ .faulted (.internalDefect m)

/-- R11, R20, R36: a run, however long, leaves Y, memory and the parameters as the host left them. -/
def Obligations.RunLeavesYAndMemory : Prop :=
  ∀ (k : Nat) (s : State), (runSteps k s).y = s.y ∧ (runSteps k s).mem = s.mem ∧ (runSteps k s).cfg = s.cfg
end

