-- ==== Sys2Proof/Laws/Decode.lean ====
section
/-! SUPPORT. The decoder against the tables: what each listed opcode's row is, and that any other byte is unlisted. -/
namespace Sys2Proof

theorem operationOf_00 : operationOf 0x00 = .halt := rfl
theorem operationOf_A9 : operationOf 0xA9 = .loadA .immediate := rfl
theorem operationOf_A5 : operationOf 0xA5 = .loadA .zeroPage := rfl
theorem operationOf_B5 : operationOf 0xB5 = .loadA .zeroPageX := rfl
theorem operationOf_AD : operationOf 0xAD = .loadA .absolute := rfl
theorem operationOf_BD : operationOf 0xBD = .loadA .absoluteX := rfl
theorem operationOf_B9 : operationOf 0xB9 = .loadA .absoluteY := rfl
theorem operationOf_A1 : operationOf 0xA1 = .loadA .indirectX := rfl
theorem operationOf_B1 : operationOf 0xB1 = .loadA .indirectY := rfl
theorem operationOf_AA : operationOf 0xAA = .transferAToX := rfl
theorem operationOf_E8 : operationOf 0xE8 = .incrementX := rfl

/-- The twelve cases of the table lookup (R45). -/
theorem operationOf_cases (b : Byte) :
    (b = 0x00 ∧ operationOf b = .halt) ∨ (b = 0xA9 ∧ operationOf b = .loadA .immediate) ∨
    (b = 0xA5 ∧ operationOf b = .loadA .zeroPage) ∨ (b = 0xB5 ∧ operationOf b = .loadA .zeroPageX) ∨
    (b = 0xAD ∧ operationOf b = .loadA .absolute) ∨ (b = 0xBD ∧ operationOf b = .loadA .absoluteX) ∨
    (b = 0xB9 ∧ operationOf b = .loadA .absoluteY) ∨ (b = 0xA1 ∧ operationOf b = .loadA .indirectX) ∨
    (b = 0xB1 ∧ operationOf b = .loadA .indirectY) ∨ (b = 0xAA ∧ operationOf b = .transferAToX) ∨
    (b = 0xE8 ∧ operationOf b = .incrementX) ∨
    (listedOpcodes.contains b = false ∧ operationOf b = .unlisted) := by
  by_cases hl : listedOpcodes.contains b = true
  · simp only [listedOpcodes, List.contains_cons, List.contains_nil, Bool.or_false, Bool.or_eq_true, beq_iff_eq] at hl
    rcases hl with rfl | rfl | rfl | rfl | rfl | rfl | rfl | rfl | rfl | rfl | rfl <;> decide
  · rw [Bool.not_eq_true] at hl
    have hl' := hl
    simp only [listedOpcodes, List.contains_cons, List.contains_nil, Bool.or_false, Bool.or_eq_false_iff] at hl'
    obtain ⟨h0, h1, h2, h3, h4, h5, h6, h7, h8, h9, h10⟩ := hl'
    simp only [operationOf, opcodeRows, List.lookup, h0, h1, h2, h3, h4, h5, h6, h7, h8, h9, h10, Option.getD_none]
    exact .inr (.inr (.inr (.inr (.inr (.inr (.inr (.inr (.inr (.inr (.inr ⟨hl, trivial⟩))))))))))

/-- A byte that no row lists has no row. -/
theorem operationOf_unlisted {b : Byte} (h : listedOpcodes.contains b = false) : operationOf b = .unlisted := by
  rcases operationOf_cases b with ⟨rfl, _⟩ | ⟨rfl, _⟩ | ⟨rfl, _⟩ | ⟨rfl, _⟩ | ⟨rfl, _⟩ | ⟨rfl, _⟩ | ⟨rfl, _⟩ | ⟨rfl, _⟩ |
    ⟨rfl, _⟩ | ⟨rfl, _⟩ | ⟨rfl, _⟩ | ⟨_, h'⟩ <;> first | exact h' | exact absurd h (by decide)

/-- An opcode with its operand bytes decodes, to an instruction of that opcode, and leaves the bytes after it
(R37, R45). -/
theorem decode_complete (opcode : Byte) (bs rest : List Byte) (h : bs.length = operandCount opcode) :
    ∃ i, decode (opcode :: (bs ++ rest)) = .ok (i, rest) ∧ i.opcode = opcode ∧ operandCount opcode = operandWidth i.mode := by
  rcases operationOf_cases opcode with ⟨rfl, ho⟩ | ⟨rfl, ho⟩ | ⟨rfl, ho⟩ | ⟨rfl, ho⟩ | ⟨rfl, ho⟩ | ⟨rfl, ho⟩ | ⟨rfl, ho⟩ |
    ⟨rfl, ho⟩ | ⟨rfl, ho⟩ | ⟨rfl, ho⟩ | ⟨rfl, ho⟩ | ⟨_, ho⟩ <;>
    simp only [operandCount, ho, Operation.mode, operandWidth] at h <;>
    simp only [decode, ho, decodeLoad, operandCount, Operation.mode] <;>
    first
    | (obtain rfl := List.eq_nil_of_length_eq_zero h; exact ⟨_, rfl, rfl, rfl⟩)
    | (obtain ⟨b, rfl⟩ := List.length_eq_one_iff.mp h; exact ⟨_, rfl, rfl, rfl⟩)
    | (obtain ⟨lo, hi, rfl⟩ := List.length_eq_two.mp h; exact ⟨_, rfl, rfl, rfl⟩)

/-- A joined word as a number: the high byte counts 256. -/
theorem joinBytes_toNat (hi lo : Byte) : (joinBytes hi lo).toNat = 256 * hi.toNat + lo.toNat := by
  have hh := hi.isLt
  have hl := lo.isLt
  simp only [joinBytes, zext16, BitVec.truncate_eq_setWidth, BitVec.toNat_or, BitVec.toNat_shiftLeft,
    BitVec.toNat_setWidth, Nat.reducePow]
  rw [show (hi.toNat % 65536) <<< 8 % 65536 = 2 ^ 8 * hi.toNat by simp only [Nat.shiftLeft_eq]; omega,
    show lo.toNat % 65536 = lo.toNat by omega, ← Nat.two_pow_add_eq_or_of_lt hl]

theorem lowByte_toNat (w : Word) : (lowByte w).toNat = w.toNat % 256 := by
  simp [lowByte, BitVec.extractLsb'_toNat]

theorem highByte_toNat (w : Word) : (highByte w).toNat = w.toNat / 256 := by
  have hw := w.isLt
  simp only [highByte, BitVec.extractLsb'_toNat, Nat.shiftRight_eq_div_pow, Nat.reducePow]
  omega

@[simp] theorem joinBytes_high_low (w : Word) : joinBytes (highByte w) (lowByte w) = w := by
  apply BitVec.eq_of_toNat_eq
  rw [joinBytes_toNat, highByte_toNat, lowByte_toNat]
  omega

@[simp] theorem lowByte_joinBytes (hi lo : Byte) : lowByte (joinBytes hi lo) = lo := by
  apply BitVec.eq_of_toNat_eq
  rw [lowByte_toNat, joinBytes_toNat]
  have := lo.isLt
  omega

@[simp] theorem highByte_joinBytes (hi lo : Byte) : highByte (joinBytes hi lo) = hi := by
  apply BitVec.eq_of_toNat_eq
  rw [highByte_toNat, joinBytes_toNat]
  have := lo.isLt
  omega

end Sys2Proof
end

