-- ==== Sys2Proof/Laws/Flags.lean ====
section
/-! SUPPORT. What `updateZN` does to each bit of the status byte (R18). -/
namespace Sys2Proof.Machine

open Sys2Proof

/-- Every bit of the updated status byte: bit 1 is the zero test, bit 7 the top bit of the value, the others are kept. -/
theorem updateZN_getLsbD (v p : Byte) (i : Nat) :
    (updateZN v p).getLsbD i = if i = 1 then decide (v = 0) else if i = 7 then v.getLsbD 7 else p.getLsbD i := by
  by_cases hi : i < 8
  · have hz : ∀ z n : Bool, ∀ q : Byte, ∀ j : Fin 8,
        ((q &&& 0x7D) ||| ((if n then (1 : Byte) else 0) <<< 7) ||| ((if z then (1 : Byte) else 0) <<< 1)).getLsbD j =
          if (j : Nat) = 1 then z else if (j : Nat) = 7 then n else q.getLsbD j := by
      intro z n q j
      fin_cases j <;> cases z <;> cases n <;> simp
    have h := hz (decide (v = 0)) (v.getLsbD 7) p ⟨i, hi⟩
    simpa [updateZN, unusedBits] using h
  · have h1 : i ≠ 1 := by omega
    have h7 : i ≠ 7 := by omega
    simp [h1, h7, BitVec.getLsbD_of_ge _ i (by omega : 8 ≤ i)]

@[simp] theorem zeroFlag_updateZN (v p : Byte) : zeroFlag (updateZN v p) = decide (v = 0) := by
  exact updateZN_getLsbD v p 1

@[simp] theorem negativeFlag_updateZN (v p : Byte) : negativeFlag (updateZN v p) = v.getLsbD 7 := by
  exact updateZN_getLsbD v p 7

theorem unusedBits_getLsbD (p : Byte) (i : Nat) :
    (unusedBits p).getLsbD i = (decide (i ≠ 1) && decide (i ≠ 7) && p.getLsbD i) := by
  by_cases hi : i < 8
  · have h : ∀ j : Fin 8, (unusedBits p).getLsbD j = (decide ((j : Nat) ≠ 1) && decide ((j : Nat) ≠ 7) && p.getLsbD j) := by
      intro j
      fin_cases j <;> simp [unusedBits]
    exact h ⟨i, hi⟩
  · simp [BitVec.getLsbD_of_ge _ i (by omega : 8 ≤ i)]

@[simp] theorem unusedBits_updateZN (v p : Byte) : unusedBits (updateZN v p) = unusedBits p := by
  apply BitVec.eq_of_getLsbD_eq
  intro i _
  rw [unusedBits_getLsbD, unusedBits_getLsbD, updateZN_getLsbD]
  by_cases h1 : i = 1 <;> by_cases h7 : i = 7 <;> simp [h1, h7]

end Sys2Proof.Machine
end

