-- ==== Sys2Proof/Laws/Memory.lean ====
section
/-! SUPPORT. The store: read after write, the frame of a write, and that a write keeps the canonical form and the bound. -/
namespace Sys2Proof.Machine

open Sys2Proof

@[simp] theorem Memory.read_nil (a : Nat) : Memory.read [] a = unlistedByte := rfl

/-- A lower starting bound is weaker. -/
theorem Memory.wfFrom_mono {lo lo' : Nat} {m : Memory} (h : Memory.wfFrom lo' m = true) (hl : lo ≤ lo') :
    Memory.wfFrom lo m = true := by
  cases m with
  | nil => rfl
  | cons c m =>
    simp only [Memory.wfFrom, Bool.and_eq_true, decide_eq_true_eq] at h ⊢
    exact ⟨⟨by omega, h.1.2⟩, h.2⟩

/-- Below its bound a canonical list holds nothing. -/
theorem Memory.read_below {lo a : Nat} {m : Memory} (h : Memory.wfFrom lo m = true) (ha : a < lo) :
    m.read a = unlistedByte := by
  cases m with
  | nil => rfl
  | cons c m =>
    simp only [Memory.wfFrom, Bool.and_eq_true, decide_eq_true_eq] at h
    simp only [Memory.read, if_pos (show a < c.1 by omega)]

/-- A write keeps the canonical form. -/
theorem Memory.wfFrom_write {lo a : Nat} {m : Memory} (v : Byte) (h : Memory.wfFrom lo m = true) (ha : lo ≤ a) :
    Memory.wfFrom lo (m.write a v) = true := by
  induction m generalizing lo with
  | nil =>
    by_cases hv : v = unlistedByte
    · simp [Memory.write, Memory.wfFrom, hv]
    · simp [Memory.write, Memory.wfFrom, hv, ha]
  | cons c m ih =>
    obtain ⟨k, w⟩ := c
    have h' := h
    simp only [Memory.wfFrom, Bool.and_eq_true, decide_eq_true_eq] at h'
    obtain ⟨⟨hk, hw⟩, hm⟩ := h'
    simp only [Memory.write]
    by_cases hlt : a < k
    · by_cases hv : v = unlistedByte
      · simpa [hlt, hv] using h
      · simp [hlt, hv, Memory.wfFrom, ha, hw, hm]
    · by_cases he : a = k
      · subst he
        by_cases hv : v = unlistedByte
        · simpa [hv] using Memory.wfFrom_mono hm (by omega)
        · simp [hv, Memory.wfFrom, ha, hm]
      · simp [hlt, he, Memory.wfFrom, hk, hw]
        exact ih hm (by omega)

/-- A write keeps `Memory.wf`. -/
theorem Memory.wf_write {m : Memory} (a : Nat) (v : Byte) (h : m.wf = true) : (m.write a v).wf = true :=
  Memory.wfFrom_write v h (Nat.zero_le a)

/-- A write below `size` keeps every listed address below it. -/
theorem Memory.within_write {size a : Nat} {m : Memory} (v : Byte) (h : m.within size = true) (ha : a < size) :
    (m.write a v).within size = true := by
  induction m with
  | nil => by_cases hv : v = unlistedByte <;> simp [Memory.write, Memory.within, hv, ha]
  | cons c m ih =>
    obtain ⟨k, w⟩ := c
    simp only [Memory.within, List.all_cons, Bool.and_eq_true, decide_eq_true_eq] at h ih
    simp only [Memory.write]
    split
    · split <;> simp [Memory.within, h.1, ha] <;> simpa using h.2
    · split
      · split
        · simpa [Memory.within] using h.2
        · simp [Memory.within, ha]; simpa using h.2
      · simp only [Memory.within, List.all_cons, Bool.and_eq_true, decide_eq_true_eq]
        exact ⟨h.1, ih h.2⟩

theorem Memory.read_write_self_from {lo a : Nat} {m : Memory} (v : Byte) (h : Memory.wfFrom lo m = true) :
    (m.write a v).read a = v := by
  induction m generalizing lo with
  | nil => by_cases hv : v = unlistedByte <;> simp [Memory.write, Memory.read, hv]
  | cons c m ih =>
    obtain ⟨k, w⟩ := c
    simp only [Memory.wfFrom, Bool.and_eq_true, decide_eq_true_eq] at h
    simp only [Memory.write]
    by_cases hlt : a < k
    · by_cases hv : v = unlistedByte <;> simp [hlt, hv, Memory.read]
    · by_cases he : a = k
      · subst he
        by_cases hv : v = unlistedByte
        · simp [hv, Memory.read_below h.2]
        · simp [hv, Memory.read]
      · simp [hlt, he, Memory.read]
        exact ih h.2

/-- A byte reads as what was last written to it. -/
theorem Memory.read_write_self {m : Memory} (a : Nat) (v : Byte) (h : m.wf = true) : (m.write a v).read a = v :=
  Memory.read_write_self_from v h

theorem Memory.read_write_other_from {lo a b : Nat} {m : Memory} (v : Byte) (h : Memory.wfFrom lo m = true)
    (hb : b ≠ a) : (m.write a v).read b = m.read b := by
  induction m generalizing lo with
  | nil =>
    by_cases hv : v = unlistedByte
    · simp [Memory.write, hv]
    · by_cases hlt : b < a <;> simp [Memory.write, Memory.read, hv, hb]
  | cons c m ih =>
    obtain ⟨k, w⟩ := c
    simp only [Memory.wfFrom, Bool.and_eq_true, decide_eq_true_eq] at h
    simp only [Memory.write]
    by_cases hlt : a < k
    · by_cases hv : v = unlistedByte
      · simp [hlt, hv]
      · by_cases hba : b < a
        · simp [hlt, hv, Memory.read, hba, show b < k by omega]
        · simp [hlt, hv, Memory.read, hba, hb]
    · by_cases he : a = k
      · subst he
        by_cases hv : v = unlistedByte
        · by_cases hba : b < a
          · simp [hv, Memory.read, hba, Memory.read_below h.2 (show b < a + 1 by omega)]
          · simp [hv, Memory.read, hba, hb]
        · simp [hv, Memory.read, hb]
      · simp only [if_neg hlt, if_neg he, Memory.read]
        rw [ih h.2]

/-- A write leaves every other byte as it was. -/
theorem Memory.read_write_other {m : Memory} {a b : Nat} (v : Byte) (h : m.wf = true) (hb : b ≠ a) :
    (m.write a v).read b = m.read b :=
  Memory.read_write_other_from v h hb

/-- Both at once. -/
theorem Memory.read_write {m : Memory} (a b : Nat) (v : Byte) (h : m.wf = true) :
    (m.write a v).read b = if b = a then v else m.read b := by
  by_cases hb : b = a
  · subst hb; simp [Memory.read_write_self _ _ h]
  · simp [hb, Memory.read_write_other v h hb]

end Sys2Proof.Machine
end

