-- ==== Sys2Proof/Laws/State.lean ====
section
/-! SUPPORT. One lemma for each field of the state under each shared update, so that no later proof unfolds a record
update. -/
namespace Sys2Proof.Machine

open Sys2Proof

/-! ### setA -/
@[simp] theorem setA_a (v : Byte) (s : State) : (setA v s).a = v := rfl
@[simp] theorem setA_x (v : Byte) (s : State) : (setA v s).x = s.x := rfl
@[simp] theorem setA_y (v : Byte) (s : State) : (setA v s).y = s.y := rfl
@[simp] theorem setA_p (v : Byte) (s : State) : (setA v s).p = updateZN v s.p := rfl
@[simp] theorem setA_pc (v : Byte) (s : State) : (setA v s).pc = s.pc := rfl
@[simp] theorem setA_mem (v : Byte) (s : State) : (setA v s).mem = s.mem := rfl
@[simp] theorem setA_rs (v : Byte) (s : State) : (setA v s).rs = s.rs := rfl
@[simp] theorem setA_cfg (v : Byte) (s : State) : (setA v s).cfg = s.cfg := rfl

/-! ### setX -/
@[simp] theorem setX_a (v : Byte) (s : State) : (setX v s).a = s.a := rfl
@[simp] theorem setX_x (v : Byte) (s : State) : (setX v s).x = v := rfl
@[simp] theorem setX_y (v : Byte) (s : State) : (setX v s).y = s.y := rfl
@[simp] theorem setX_p (v : Byte) (s : State) : (setX v s).p = updateZN v s.p := rfl
@[simp] theorem setX_pc (v : Byte) (s : State) : (setX v s).pc = s.pc := rfl
@[simp] theorem setX_mem (v : Byte) (s : State) : (setX v s).mem = s.mem := rfl
@[simp] theorem setX_rs (v : Byte) (s : State) : (setX v s).rs = s.rs := rfl
@[simp] theorem setX_cfg (v : Byte) (s : State) : (setX v s).cfg = s.cfg := rfl

/-! ### advancePc -/
@[simp] theorem advancePc_a (n : Nat) (s : State) : (advancePc n s).a = s.a := rfl
@[simp] theorem advancePc_x (n : Nat) (s : State) : (advancePc n s).x = s.x := rfl
@[simp] theorem advancePc_y (n : Nat) (s : State) : (advancePc n s).y = s.y := rfl
@[simp] theorem advancePc_p (n : Nat) (s : State) : (advancePc n s).p = s.p := rfl
@[simp] theorem advancePc_pc (n : Nat) (s : State) : (advancePc n s).pc = s.pc + BitVec.ofNat 16 n := rfl
@[simp] theorem advancePc_mem (n : Nat) (s : State) : (advancePc n s).mem = s.mem := rfl
@[simp] theorem advancePc_rs (n : Nat) (s : State) : (advancePc n s).rs = s.rs := rfl
@[simp] theorem advancePc_cfg (n : Nat) (s : State) : (advancePc n s).cfg = s.cfg := rfl

/-! ### takeFault -/
@[simp] theorem takeFault_a (f : Fault) (s : State) : (takeFault f s).a = s.a := rfl
@[simp] theorem takeFault_x (f : Fault) (s : State) : (takeFault f s).x = s.x := rfl
@[simp] theorem takeFault_y (f : Fault) (s : State) : (takeFault f s).y = s.y := rfl
@[simp] theorem takeFault_p (f : Fault) (s : State) : (takeFault f s).p = s.p := rfl
@[simp] theorem takeFault_pc (f : Fault) (s : State) : (takeFault f s).pc = s.pc := rfl
@[simp] theorem takeFault_mem (f : Fault) (s : State) : (takeFault f s).mem = s.mem := rfl
@[simp] theorem takeFault_rs (f : Fault) (s : State) : (takeFault f s).rs = .faulted f := rfl
@[simp] theorem takeFault_cfg (f : Fault) (s : State) : (takeFault f s).cfg = s.cfg := rfl

/-! ### advanceOperand: only PC -/
theorem advanceOperand_cases (opcode : Byte) (mode : Mode) (s : State) :
    (omitsAdvance s.cfg opcode = true ∧ advanceOperand opcode mode s = s) ∨
    (omitsAdvance s.cfg opcode = false ∧
      advanceOperand opcode mode s = advancePc (operandWidth mode) s) := by
  cases h : omitsAdvance s.cfg opcode <;> simp [advanceOperand, h]

@[simp] theorem advanceOperand_a (opcode : Byte) (mode : Mode) (s : State) :
    (advanceOperand opcode mode s).a = s.a := by
  rcases advanceOperand_cases opcode mode s with ⟨_, h⟩ | ⟨_, h⟩ <;> simp [h]
@[simp] theorem advanceOperand_x (opcode : Byte) (mode : Mode) (s : State) :
    (advanceOperand opcode mode s).x = s.x := by
  rcases advanceOperand_cases opcode mode s with ⟨_, h⟩ | ⟨_, h⟩ <;> simp [h]
@[simp] theorem advanceOperand_y (opcode : Byte) (mode : Mode) (s : State) :
    (advanceOperand opcode mode s).y = s.y := by
  rcases advanceOperand_cases opcode mode s with ⟨_, h⟩ | ⟨_, h⟩ <;> simp [h]
@[simp] theorem advanceOperand_p (opcode : Byte) (mode : Mode) (s : State) :
    (advanceOperand opcode mode s).p = s.p := by
  rcases advanceOperand_cases opcode mode s with ⟨_, h⟩ | ⟨_, h⟩ <;> simp [h]
@[simp] theorem advanceOperand_mem (opcode : Byte) (mode : Mode) (s : State) :
    (advanceOperand opcode mode s).mem = s.mem := by
  rcases advanceOperand_cases opcode mode s with ⟨_, h⟩ | ⟨_, h⟩ <;> simp [h]
@[simp] theorem advanceOperand_rs (opcode : Byte) (mode : Mode) (s : State) :
    (advanceOperand opcode mode s).rs = s.rs := by
  rcases advanceOperand_cases opcode mode s with ⟨_, h⟩ | ⟨_, h⟩ <;> simp [h]
@[simp] theorem advanceOperand_cfg (opcode : Byte) (mode : Mode) (s : State) :
    (advanceOperand opcode mode s).cfg = s.cfg := by
  rcases advanceOperand_cases opcode mode s with ⟨_, h⟩ | ⟨_, h⟩ <;> simp [h]

end Sys2Proof.Machine
end

