-- ==== Sys2Proof/Laws/Ops.lean ====
section
/-! SUPPORT. What each shared operation over memory can do: a read answers the stored byte or the one fault of the store's
end, and depends on the store and its size alone. -/
namespace Sys2Proof.Machine

open Sys2Proof

theorem storeSize_cases (c : Config) :
    (c.memSize = .bytes65535 ∧ storeSize c = 65535) ∨ (c.memSize = .bytes65536 ∧ storeSize c = 65536) := by
  cases h : c.memSize <;> simp [storeSize, h]

/-- An address is outside the store in one case: 0xFFFF, with the store of 65535 bytes. -/
theorem storeSize_le_iff (c : Config) (a : Word) :
    storeSize c ≤ a.toNat ↔ c.memSize = .bytes65535 ∧ a = 0xFFFF := by
  have ha := a.isLt
  have he : a = 0xFFFF ↔ a.toNat = 65535 := by
    constructor
    · rintro rfl; rfl
    · intro h; exact BitVec.eq_of_toNat_eq h
  rcases storeSize_cases c with ⟨h, hs⟩ | ⟨h, hs⟩ <;> rw [hs, he] <;> simp [h] <;> omega

theorem readByte_ok {s : State} {a : Word} (h : a.toNat < storeSize s.cfg) :
    readByte s a = .ok (s.mem.read a.toNat) := by
  simp [readByte, Nat.not_le.mpr h]

theorem readByte_error {s : State} {a : Word} (h : storeSize s.cfg ≤ a.toNat) :
    readByte s a = .error (.outOfBounds a.toNat .read) := by
  simp [readByte, h]

/-- All a byte read can answer. -/
theorem readByte_cases (s : State) (a : Word) :
    (a.toNat < storeSize s.cfg ∧ readByte s a = .ok (s.mem.read a.toNat)) ∨
    (s.cfg.memSize = .bytes65535 ∧ a = 0xFFFF ∧ readByte s a = .error (.outOfBounds 65535 .read)) := by
  by_cases h : storeSize s.cfg ≤ a.toNat
  · obtain ⟨hc, ha⟩ := (storeSize_le_iff _ _).mp h
    refine .inr ⟨hc, ha, ?_⟩
    rw [readByte_error h, ha]; rfl
  · exact .inl ⟨by omega, readByte_ok (by omega)⟩

/-- A read sees the store and its size, and nothing else of the state. -/
theorem readByte_congr {s t : State} (hm : t.mem = s.mem) (hc : t.cfg = s.cfg) (a : Word) :
    readByte t a = readByte s a := by
  simp [readByte, hm, hc]

theorem readWord_congr {s t : State} (hm : t.mem = s.mem) (hc : t.cfg = s.cfg) (a : Word) :
    readWord t a = readWord s a := by
  simp only [readWord, readByte_congr hm hc]

@[simp] theorem readByte_advancePc (n : Nat) (s : State) (a : Word) : readByte (advancePc n s) a = readByte s a :=
  readByte_congr rfl rfl a

@[simp] theorem zext16_toNat (b : Byte) : (zext16 b).toNat = b.toNat := by
  have := b.isLt
  simp only [zext16, BitVec.truncate_eq_setWidth, BitVec.toNat_setWidth]
  omega

/-- The zero page is always in the store. -/
theorem readByte_zeroPage (s : State) (b : Byte) : readByte s (zext16 b) = .ok (s.mem.read b.toNat) := by
  have hb := b.isLt
  rw [readByte_ok, zext16_toNat]
  rw [zext16_toNat]
  rcases storeSize_cases s.cfg with ⟨_, h⟩ | ⟨_, h⟩ <;> omega

/-- A pointer read never faults (R58, R59). -/
theorem readPointer_eq (s : State) (p : Byte) :
    readPointer s p = .ok (joinBytes (s.mem.read (p + 1).toNat) (s.mem.read p.toNat)) := by
  simp only [readPointer, readByte_zeroPage]; rfl

theorem storeAt_ok {s : State} {addr : Nat} (v : Byte) (h : addr < storeSize s.cfg) :
    storeAt s addr v = .ok { s with mem := s.mem.write addr v } := by
  simp [storeAt, Nat.not_le.mpr h]

theorem storeAt_error {s : State} {addr : Nat} (v : Byte) (h : storeSize s.cfg ≤ addr) :
    storeAt s addr v = .error (.outOfBounds addr .write) := by
  simp [storeAt, h]

@[simp] theorem withAccess_ok {α : Type} (v : α) (s : State) (k : α → State) : withAccess (.ok v) s k = k v := rfl
@[simp] theorem withAccess_error {α : Type} (f : Fault) (s : State) (k : α → State) :
    withAccess (.error f) s k = takeFault f s := rfl

end Sys2Proof.Machine
end

