-- ==== Sys2Proof/Laws/Exec.lean ====
section
/-! SUPPORT. What the meanings can do, said once: a load completes with the byte at its address or takes the fault of that
read, and `exec` answers a next state that is one of five kinds. -/
namespace Sys2Proof.Machine

open Sys2Proof

theorem loadFrom_ok {opcode : Byte} {mode : Mode} {ea : Word} {s : State} (h : ea.toNat < storeSize s.cfg) :
    loadFrom opcode mode (.ok ea) s = finishLoad opcode mode (s.mem.read ea.toNat) s := by
  show withAccess (readByte s ea) s _ = _
  rw [readByte_ok h, withAccess_ok]

theorem loadFrom_fault {opcode : Byte} {mode : Mode} {ea : Word} {s : State} (h : storeSize s.cfg ≤ ea.toNat) :
    loadFrom opcode mode (.ok ea) s = takeFault (.outOfBounds ea.toNat .read) s := by
  show withAccess (readByte s ea) s _ = _
  rw [readByte_error h, withAccess_error]

/-- The address a load form reads, with its operand in the instruction; none for the other instructions, and none for
the immediate form, whose data is its operand. -/
def loadAddress (s : State) : Instr → Option Word
  | .ldaZp zp => some (zext16 zp)
  | .ldaZpX zp => some (zeroPageIndexed zp s.x)
  | .ldaAbs base => some base
  | .ldaAbsX base => some (absoluteIndexed base s.x)
  | .ldaAbsY base => some (absoluteIndexed base s.y)
  | .ldaIndX zp => some (joinBytes (s.mem.read (zp + s.x + 1).toNat) (s.mem.read (zp + s.x).toNat))
  | .ldaIndY zp => some (absoluteIndexed (joinBytes (s.mem.read (zp + 1).toNat) (s.mem.read zp.toNat)) s.y)
  | .hlt => none
  | .ldaImm _ => none
  | .tax => none
  | .inx => none
  | .nopUnlisted _ => none

/-- A form that reads data from an address is `loadFrom` at that address. -/
theorem exec_of_loadAddress {i : Instr} {s : State} {ea : Word} (h : loadAddress s i = some ea) :
    exec i s = .next (loadFrom i.opcode i.mode (.ok ea) s) := by
  cases i <;> simp only [loadAddress, Option.some.injEq, reduceCtorEq] at h <;> subst h <;>
    first
    | rfl
    | (simp only [exec, execLdaIndX, execLdaIndY, indirectXAddress, indirectYAddress, readPointer_eq]; rfl)

/-- Everything `exec` can do. -/
theorem exec_cases (i : Instr) (s : State) :
    (i = .hlt ∧ exec i s = .next { s with rs := .halted }) ∨
    ((∃ b, i = .nopUnlisted b) ∧ exec i s = .next s) ∨
    (∃ v, ((i = .tax ∧ v = s.a) ∨ (i = .inx ∧ v = s.x + 1)) ∧ exec i s = .next (setX v s)) ∨
    (i.mode ≠ .noneAddressing ∧ ∃ v, exec i s = .next (finishLoad i.opcode i.mode v s)) ∨
    (i.mode ≠ .noneAddressing ∧ s.cfg.memSize = .bytes65535 ∧ loadAddress s i = some 0xFFFF ∧
      exec i s = .next (takeFault (.outOfBounds 65535 .read) s)) := by
  have load : ∀ ea, i.mode ≠ .noneAddressing → loadAddress s i = some ea →
      (i.mode ≠ .noneAddressing ∧ ∃ v, exec i s = .next (finishLoad i.opcode i.mode v s)) ∨
      (i.mode ≠ .noneAddressing ∧ s.cfg.memSize = .bytes65535 ∧ loadAddress s i = some 0xFFFF ∧
        exec i s = .next (takeFault (.outOfBounds 65535 .read) s)) := by
    intro ea hm h
    rw [exec_of_loadAddress h]
    rcases Nat.lt_or_ge ea.toNat (storeSize s.cfg) with hlt | hge
    · exact .inl ⟨hm, _, by rw [loadFrom_ok hlt]⟩
    · obtain ⟨hc, he⟩ := (storeSize_le_iff _ _).mp hge
      refine .inr ⟨hm, hc, by rw [h, he], ?_⟩
      rw [loadFrom_fault hge, he]; rfl
  cases i with
  | hlt => exact .inl ⟨rfl, rfl⟩
  | nopUnlisted b => exact .inr (.inl ⟨⟨b, rfl⟩, rfl⟩)
  | tax => exact .inr (.inr (.inl ⟨_, .inl ⟨rfl, rfl⟩, rfl⟩))
  | inx => exact .inr (.inr (.inl ⟨_, .inr ⟨rfl, rfl⟩, rfl⟩))
  | ldaImm imm => exact .inr (.inr (.inr (.inl ⟨by simp [Instr.mode], imm, rfl⟩)))
  | ldaZp zp => exact .inr (.inr (.inr (load _ (by simp [Instr.mode]) rfl)))
  | ldaZpX zp => exact .inr (.inr (.inr (load _ (by simp [Instr.mode]) rfl)))
  | ldaAbs base => exact .inr (.inr (.inr (load _ (by simp [Instr.mode]) rfl)))
  | ldaAbsX base => exact .inr (.inr (.inr (load _ (by simp [Instr.mode]) rfl)))
  | ldaAbsY base => exact .inr (.inr (.inr (load _ (by simp [Instr.mode]) rfl)))
  | ldaIndX zp => exact .inr (.inr (.inr (load _ (by simp [Instr.mode]) rfl)))
  | ldaIndY zp => exact .inr (.inr (.inr (load _ (by simp [Instr.mode]) rfl)))

end Sys2Proof.Machine
end

