-- ==== Sys2Proof/Laws/Fetch.lean ====
section
/-! SUPPORT. What the fetch can do, said once. -/
namespace Sys2Proof.Machine

open Sys2Proof

theorem readBytes_congr {s t : State} (hm : t.mem = s.mem) (hc : t.cfg = s.cfg) (a : Word) (n : Nat) :
    readBytes t a n = readBytes s a n := by
  induction n generalizing a with
  | zero => rfl
  | succ n ih => simp only [readBytes, readByte_congr hm hc, ih]

/-- A read of some bytes answers that many, or the one fault of the store's end. -/
theorem readBytes_cases (s : State) (a : Word) (n : Nat) :
    (∃ bs, readBytes s a n = .ok bs ∧ bs.length = n) ∨
    (s.cfg.memSize = .bytes65535 ∧ readBytes s a n = .error (.outOfBounds 65535 .read)) := by
  induction n generalizing a with
  | zero => exact .inl ⟨[], rfl, rfl⟩
  | succ n ih =>
    rcases readByte_cases s a with ⟨_, h⟩ | ⟨hc, _, h⟩
    · rcases ih (a + 1) with ⟨bs, hb, hl⟩ | ⟨hc, hb⟩
      · exact .inl ⟨_ :: bs, by simp only [readBytes, h, hb]; rfl, by simp [hl]⟩
      · exact .inr ⟨hc, by simp only [readBytes, h, hb]; rfl⟩
    · exact .inr ⟨hc, by simp only [readBytes, h]; rfl⟩

/-- Everything the fetch can do: fault at the opcode, fault at the operand with PC one past the opcode, or give the
instruction that the bytes at PC encode. -/
theorem fetch_cases (s : State) :
    (s.cfg.memSize = .bytes65535 ∧ s.pc = 0xFFFF ∧ fetch s = (s, .error (.outOfBounds 65535 .read))) ∨
    (s.pc.toNat < storeSize s.cfg ∧ s.cfg.memSize = .bytes65535 ∧
      readBytes s (s.pc + 1) (operandCount (s.mem.read s.pc.toNat)) = .error (.outOfBounds 65535 .read) ∧
      fetch s = (advancePc 1 s, .error (.outOfBounds 65535 .read))) ∨
    (s.pc.toNat < storeSize s.cfg ∧ ∃ bs i,
      readBytes s (s.pc + 1) (operandCount (s.mem.read s.pc.toNat)) = .ok bs ∧
      decode (s.mem.read s.pc.toNat :: bs) = .ok (i, []) ∧ i.opcode = s.mem.read s.pc.toNat ∧
      operandCount (s.mem.read s.pc.toNat) = operandWidth i.mode ∧ fetch s = (advancePc 1 s, .ok i)) := by
  rcases readByte_cases s s.pc with ⟨hlt, h⟩ | ⟨hc, hp, h⟩
  · have hr : readBytes (advancePc 1 s) (advancePc 1 s).pc (operandCount (s.mem.read s.pc.toNat)) =
        readBytes s (s.pc + 1) (operandCount (s.mem.read s.pc.toNat)) :=
      readBytes_congr (s := s) (t := advancePc 1 s) rfl rfl _ _
    rcases readBytes_cases s (s.pc + 1) (operandCount (s.mem.read s.pc.toNat)) with ⟨bs, hb, hl⟩ | ⟨hc, hb⟩
    · obtain ⟨i, hd, ho, hw⟩ := decode_complete _ bs [] hl
      rw [List.append_nil] at hd
      refine .inr (.inr ⟨hlt, bs, i, hb, hd, ho, hw, ?_⟩)
      simp only [fetch, h, hr, hb]
      show (_, decodeFetched _) = _
      simp only [decodeFetched, hd]
    · refine .inr (.inl ⟨hlt, hc, hb, ?_⟩)
      simp only [fetch, h, hr, hb]; rfl
  · exact .inl ⟨hc, hp, by simp only [fetch, h]⟩

end Sys2Proof.Machine
end

