-- ==== Sys2Proof/Laws/HostCalls.lean ====
section
/-! SUPPORT. What the host's calls can do, said once: the image store of `load`, the vector write and read, and when a call
acts. -/
namespace Sys2Proof.Machine

open Sys2Proof

theorem hostGuard_acts {s effect : State} (h : s.rs = .idle ∨ s.rs = .halted) : hostGuard s effect = .next effect := by
  rcases h with h | h <;> simp [hostGuard, h]

theorem hostGuard_faulted {s : State} (effect : State) {f : Fault} (h : s.rs = .faulted f) :
    hostGuard s effect = .next s := by
  simp [hostGuard, h]

theorem seedGuard_acts {s effect : State} (h : s.rs = .idle ∨ s.rs = .halted) : seedGuard s effect = .next effect := by
  rcases h with h | h <;> simp [seedGuard, h]

/-- The low and high vector bytes are in the store, so the vector read answers (R92). -/
theorem readWord_resetVector (s : State) :
    readWord s resetVector = .ok (joinBytes (s.mem.read 0xFFFD) (s.mem.read 0xFFFC)) := by
  have h : ∀ a : Word, a.toNat < 65535 → readByte s a = .ok (s.mem.read a.toNat) := by
    intro a ha
    apply readByte_ok
    rcases storeSize_cases s.cfg with ⟨_, hs⟩ | ⟨_, hs⟩ <;> omega
  simp only [readWord, h resetVector (by decide), h (resetVector + 1) (by decide)]
  rfl

theorem resetEffect_eq (s : State) :
    resetEffect s =
      { s with a := 0x00, x := 0x00, p := 0x00, pc := joinBytes (s.mem.read 0xFFFD) (s.mem.read 0xFFFC), rs := .idle } := by
  simp only [resetEffect, readWord_resetVector, withAccess_ok]

theorem writeWord_resetVector (s : State) :
    writeWord s resetVector loadOrigin = .ok { s with mem := (s.mem.write 0xFFFC 0x00).write 0xFFFD 0x80 } := by
  have h : ∀ t : State, ∀ addr v, addr < 65535 → storeAt t addr v = .ok { t with mem := t.mem.write addr v } := by
    intro t addr v ha
    apply storeAt_ok
    rcases storeSize_cases t.cfg with ⟨_, hs⟩ | ⟨_, hs⟩ <;> omega
  simp only [writeWord, writeByte, show resetVector.toNat = 0xFFFC from rfl,
    show (resetVector + 1).toNat = 0xFFFD from rfl]
  rw [h _ _ _ (by decide)]
  exact h _ _ _ (by decide)

/-- Image bytes that fit are all stored, and nothing else changes (R93). -/
theorem storeImage_fits (s : State) (addr : Nat) (img : List Byte) (hw : s.mem.wf = true)
    (h : addr + img.length ≤ storeSize s.cfg) :
    ∃ m, storeImage s addr img = { s with mem := m } ∧ m.wf = true ∧
      (s.mem.within (storeSize s.cfg) = true → m.within (storeSize s.cfg) = true) ∧
      ∀ b, m.read b = if addr ≤ b ∧ b < addr + img.length then img.getD (b - addr) 0 else s.mem.read b := by
  induction img generalizing s addr with
  | nil => exact ⟨s.mem, rfl, hw, id, fun b => by rw [if_neg (by simp)]⟩
  | cons v img ih =>
    simp only [List.length_cons] at h
    have hst : storeAt s addr v = .ok { s with mem := s.mem.write addr v } := storeAt_ok v (by omega)
    have hlt : addr < storeSize s.cfg := by omega
    have hfit : addr + 1 + img.length ≤ storeSize s.cfg := by omega
    obtain ⟨m, hm, hmw, hin, hr⟩ :=
      ih { s with mem := s.mem.write addr v } (addr + 1) (Memory.wf_write _ _ hw) hfit
    refine ⟨m, by simp only [storeImage, hst, withAccess_ok]; exact hm, hmw,
      fun hs => hin (Memory.within_write v hs hlt), fun b => ?_⟩
    rw [hr b]
    simp only [List.length_cons]
    by_cases hb : b = addr
    · subst hb; simp [Memory.read_write_self _ _ hw]
    · rw [Memory.read_write_other v hw hb]
      by_cases hin' : addr + 1 ≤ b ∧ b < addr + 1 + img.length
      · rw [if_pos hin', if_pos (by omega), show b - addr = (b - (addr + 1)) + 1 by omega, List.getD_cons_succ]
      · rw [if_neg hin', if_neg (by omega)]

/-- An image that does not fit is stored up to the store's end, and the fault is taken there (R93). -/
theorem storeImage_faults (s : State) (addr : Nat) (img : List Byte) (hw : s.mem.wf = true)
    (ha : addr ≤ storeSize s.cfg) (h : storeSize s.cfg < addr + img.length) :
    ∃ m, storeImage s addr img = { s with mem := m, rs := .faulted (.outOfBounds (storeSize s.cfg) .write) } ∧
      m.wf = true ∧ (s.mem.within (storeSize s.cfg) = true → m.within (storeSize s.cfg) = true) ∧
      ∀ b, m.read b = if addr ≤ b ∧ b < storeSize s.cfg then img.getD (b - addr) 0 else s.mem.read b := by
  induction img generalizing s addr with
  | nil => simp at h; omega
  | cons v img ih =>
    simp only [List.length_cons] at h
    rcases Nat.lt_or_ge addr (storeSize s.cfg) with hlt | hge
    · have hst : storeAt s addr v = .ok { s with mem := s.mem.write addr v } := storeAt_ok v hlt
      have hlong : storeSize s.cfg < addr + 1 + img.length := by omega
      obtain ⟨m, hm, hmw, hin, hr⟩ :=
        ih { s with mem := s.mem.write addr v } (addr + 1) (Memory.wf_write _ _ hw) hlt hlong
      refine ⟨m, by simp only [storeImage, hst, withAccess_ok]; exact hm, hmw,
        fun hs => hin (Memory.within_write v hs hlt), fun b => ?_⟩
      rw [hr b]
      by_cases hb : b = addr
      · subst hb; simp [Memory.read_write_self _ _ hw, hlt]
      · rw [Memory.read_write_other v hw hb]
        by_cases hin' : addr + 1 ≤ b ∧ b < storeSize s.cfg
        · rw [if_pos hin', if_pos (by omega), show b - addr = (b - (addr + 1)) + 1 by omega, List.getD_cons_succ]
        · rw [if_neg hin', if_neg (by omega)]
    · have he : addr = storeSize s.cfg := by omega
      refine ⟨s.mem, ?_, hw, id, fun b => by rw [if_neg (by omega)]⟩
      subst he
      simp only [storeImage, storeAt_error v (Nat.le_refl _), withAccess_error]
      rfl

end Sys2Proof.Machine
end

