-- ==== Sys2Proof/Laws/PerInstr.lean ====
section
/-! SUPPORT. Facts said of each instruction as syntax, one lemma for each constructor. -/

/-- An instruction's bytes are as many as its length `1 + W(mode)` (R37, R45). -/
def Sys2Proof.Laws.EncodeLength.Statement (i : Sys2Proof.Instr) : Prop :=
  (Sys2Proof.encode i).length = i.length

namespace Sys2Proof.Laws.EncodeLength

theorem hlt : Statement .hlt := rfl
theorem ldaImm (imm : Byte) : Statement (.ldaImm imm) := rfl
theorem ldaZp (zp : Byte) : Statement (.ldaZp zp) := rfl
theorem ldaZpX (zp : Byte) : Statement (.ldaZpX zp) := rfl
theorem ldaAbs (base : Word) : Statement (.ldaAbs base) := rfl
theorem ldaAbsX (base : Word) : Statement (.ldaAbsX base) := rfl
theorem ldaAbsY (base : Word) : Statement (.ldaAbsY base) := rfl
theorem ldaIndX (zp : Byte) : Statement (.ldaIndX zp) := rfl
theorem ldaIndY (zp : Byte) : Statement (.ldaIndY zp) := rfl
theorem tax : Statement .tax := rfl
theorem inx : Statement .inx := rfl
theorem nopUnlisted (opcode : Byte) : Statement (.nopUnlisted opcode) := rfl

end Sys2Proof.Laws.EncodeLength
end

