-- ==== Sys2Proof/Laws/Step.lean ====
section
/-! SUPPORT. What a step can do, said once, for every later claim about steps. -/
namespace Sys2Proof.Machine

open Sys2Proof

theorem step_idle {s : State} (h : s.rs = .idle) : step s = .next s := by simp [step, h]
theorem step_halted {s : State} (h : s.rs = .halted) : step s = .next s := by simp [step, h]
theorem step_faulted {s : State} {f : Fault} (h : s.rs = .faulted f) : step s = .fault f := by simp [step, h]

/-- A step of a running core: a fetch fault, an operand fault, or the meaning of the instruction at PC. -/
theorem step_running {s : State} (h : s.rs = .running) :
    (s.cfg.memSize = .bytes65535 ∧ s.pc = 0xFFFF ∧ step s = .next (takeFault (.outOfBounds 65535 .read) s)) ∨
    (s.pc.toNat < storeSize s.cfg ∧ s.cfg.memSize = .bytes65535 ∧
      readBytes s (s.pc + 1) (operandCount (s.mem.read s.pc.toNat)) = .error (.outOfBounds 65535 .read) ∧
      step s = .next (takeFault (.outOfBounds 65535 .read) (advancePc 1 s))) ∨
    (s.pc.toNat < storeSize s.cfg ∧ ∃ bs i,
      readBytes s (s.pc + 1) (operandCount (s.mem.read s.pc.toNat)) = .ok bs ∧
      decode (s.mem.read s.pc.toNat :: bs) = .ok (i, []) ∧ i.opcode = s.mem.read s.pc.toNat ∧
      operandCount (s.mem.read s.pc.toNat) = operandWidth i.mode ∧ step s = exec i (advancePc 1 s)) := by
  rcases fetch_cases s with ⟨hc, hp, hf⟩ | ⟨hp, hc, hr, hf⟩ | ⟨hp, bs, i, hr, hd, ho, hw, hf⟩
  · exact .inl ⟨hc, hp, by simp only [step, h, hf]⟩
  · exact .inr (.inl ⟨hp, hc, hr, by simp only [step, h, hf]⟩)
  · exact .inr (.inr ⟨hp, bs, i, hr, hd, ho, hw, by simp only [step, h, hf]⟩)

end Sys2Proof.Machine
end

