-- ==== Sys2Proof/Tests/Slice0.lean ====
section
/-! SUPPORT. Tests whose expected results come from spec/95_test_vectors.md, the encodings of spec/30_encoding.md or the
worked examples of the rules, and for each statement with hypotheses a witness that meets them. -/
namespace Sys2Proof.Tests

open Sys2Proof Sys2Proof.Machine

/-- A running core with the default parameters. -/
def running (pc : Word) (mem : Memory) : State := { State.reset with rs := .running, pc := pc, mem := mem }

/-- The same with the corrected store of 65536 bytes. -/
def corrected (pc : Word) (mem : Memory) : State :=
  { running pc mem with cfg := { memSize := .bytes65536, omitAdvance := .none } }

/-- The same with an opcode that omits its operand advance. -/
def omitting (o : OmitAdvance) (pc : Word) (mem : Memory) : State :=
  { running pc mem with cfg := { memSize := .bytes65535, omitAdvance := o } }

/-! ### WellFormed smoke: its one check refuses a listed opcode as an unlisted no-op -/

theorem wf_refuses_unlisted_halt : (Instr.nopUnlisted 0x00).wf = false := by decide
theorem wf_refuses_unlisted_lda : (Instr.nopUnlisted 0xA9).wf = false := by decide
theorem wf_accepts_unlisted_ea : (Instr.nopUnlisted 0xEA).wf = true := by decide

/-! ### Encoding (R43, R46): words written out from the spec's encodings -/

theorem test_rows_list_the_opcodes : opcodeRows.map Prod.fst = listedOpcodes ∧ listedOpcodes.Nodup := by decide
theorem test_decode_hlt : decode [0b00000000] = .ok (.hlt, []) := rfl
theorem test_decode_ldaImm : decode [0b10101001, 0x05, 0x00] = .ok (.ldaImm 0x05, [0x00]) := rfl
theorem test_decode_ldaZp : decode [0b10100101, 0x80] = .ok (.ldaZp 0x80, []) := rfl
theorem test_decode_ldaZpX : decode [0b10110101, 0x80] = .ok (.ldaZpX 0x80, []) := rfl
theorem test_decode_ldaAbs : decode [0b10101101, 0x00, 0xDE] = .ok (.ldaAbs 0xDE00, []) := rfl
theorem test_decode_ldaAbsX : decode [0b10111101, 0x00, 0xDE] = .ok (.ldaAbsX 0xDE00, []) := rfl
theorem test_decode_ldaAbsY : decode [0b10111001, 0x00, 0xDE] = .ok (.ldaAbsY 0xDE00, []) := rfl
theorem test_decode_ldaIndX : decode [0b10100001, 0x02] = .ok (.ldaIndX 0x02, []) := rfl
theorem test_decode_ldaIndY : decode [0b10110001, 0x02] = .ok (.ldaIndY 0x02, []) := rfl
theorem test_decode_tax : decode [0b10101010] = .ok (.tax, []) := rfl
theorem test_decode_inx : decode [0b11101000] = .ok (.inx, []) := rfl
theorem test_decode_unlisted : decode [0x8D, 0x00, 0x02] = .ok (.nopUnlisted 0x8D, [0x00, 0x02]) := rfl
theorem test_decode_short : decode [0xAD, 0x00] = .error (.missingOperand 0xAD) := rfl
theorem test_decode_empty : decode [] = .error .noOpcode := rfl
theorem test_table_word_lda_abs : decodeTableWord 24 0xDE00AD = some (.ldaAbs 0xDE00) := by decide
theorem test_table_word_short_row : decodeTableWord 8 0xAD = some (.ldaAbs 0x0000) := by decide

/-! ### The table's words run as the first instruction after reset -/

theorem test_first_step_inx : step (State.reset.withFetchWord 8 0xE8) =
    .next { State.reset with rs := .running, pc := 1, x := 1, mem := [(0, 0xE8)] } := rfl
theorem test_first_step_hlt : step (State.reset.withFetchWord 8 0x00) =
    .next { State.reset with rs := .halted, pc := 1 } := rfl
theorem test_first_step_lda_abs : step (State.reset.withFetchWord 24 0x0000AD) =
    .next { State.reset with rs := .running, pc := 3, a := 0xAD, p := 0x80, mem := [(0, 0xAD)] } := rfl

/-! ### Flags (95_test_vectors.md 2.1) -/

theorem test_flags_zero_keeps_unused : updateZN 0x00 0xFF = 0x7F := by decide
theorem test_flags_negative_keeps_unused : updateZN 0x80 0xFF = 0xFD := by decide
theorem test_flags_plain : updateZN 0x42 0x7D = 0x7D ∧ updateZN 0x01 0x82 = 0x00 := by decide

/-! ### The resolver (95_test_vectors.md 2.2) -/

theorem test_zeroPageX_wraps : resolve { running 0x8001 [(0x8001, 0x80)] with x := 0xFF } .zeroPageX = .ok 0x007F := rfl
theorem test_zeroPageY_wraps : resolve { running 0x8001 [(0x8001, 0xF0)] with y := 0x20 } .zeroPageY = .ok 0x0010 := rfl
theorem test_absoluteX_wraps :
    resolve { running 0x8001 [(0x8001, 0xF0), (0x8002, 0xFF)] with x := 0x20 } .absoluteX = .ok 0x0010 := rfl
theorem test_indirectX_high_byte_from_zero :
    resolve { running 0x8001 [(0x00, 0xAB), (0xFF, 0xCD), (0x100, 0x99), (0x8001, 0xF0)] with x := 0x0F } .indirectX =
      .ok 0xABCD := rfl
theorem test_indirectY_wraps_over_16_bits :
    resolve { running 0x8001 [(0x00, 0xFF), (0xFF, 0xF0), (0x8001, 0xFF)] with y := 0x20 } .indirectY = .ok 0x0010 := rfl
theorem test_sentinel : resolve (running 0x8001 []) .noneAddressing = .error (.internalDefect .noneAddressing) := rfl

/-! ### One step of each instruction (95_test_vectors.md 2.3 to 2.6) -/

theorem test_ldaImm_zero : step { running 0x8000 [(0x8000, 0xA9)] with a := 0x55 } =
    .next { running 0x8002 [(0x8000, 0xA9)] with a := 0x00, p := 0x02 } := rfl
theorem test_ldaImm_operand_fault : step { running 0xFFFE [(0xFFFE, 0xA9)] with a := 0x33 } =
    .next { running 0xFFFF [(0xFFFE, 0xA9)] with a := 0x33, rs := .faulted (.outOfBounds 0xFFFF .read) } := rfl
theorem test_ldaZp : step (running 0x8000 [(0x10, 0x7F), (0x8000, 0xA5), (0x8001, 0x10)]) =
    .next { running 0x8002 [(0x10, 0x7F), (0x8000, 0xA5), (0x8001, 0x10)] with a := 0x7F } := rfl
theorem test_ldaZpX_wraps : step { running 0x8000 [(0x8000, 0xB5), (0x8001, 0xF0)] with x := 0x20, a := 0x01 } =
    .next { running 0x8002 [(0x8000, 0xB5), (0x8001, 0xF0)] with x := 0x20, p := 0x02 } := rfl
theorem test_ldaAbs_own_opcode : step (running 0x8000 [(0x8000, 0xAD), (0x8002, 0x80)]) =
    .next { running 0x8003 [(0x8000, 0xAD), (0x8002, 0x80)] with a := 0xAD, p := 0x80 } := rfl
theorem test_ldaAbs_top_faults : step (running 0x8000 [(0x8000, 0xAD), (0x8001, 0xFF), (0x8002, 0xFF)]) =
    .next { running 0x8001 [(0x8000, 0xAD), (0x8001, 0xFF), (0x8002, 0xFF)] with
      rs := .faulted (.outOfBounds 0xFFFF .read) } := rfl
theorem test_ldaAbsX_wraps :
    step { running 0x8000 [(0x00, 0x01), (0x8000, 0xBD), (0x8001, 0xFF), (0x8002, 0xFF)] with x := 0x01 } =
    .next { running 0x8003 [(0x00, 0x01), (0x8000, 0xBD), (0x8001, 0xFF), (0x8002, 0xFF)] with x := 0x01, a := 0x01 } := rfl
theorem test_ldaAbsY : step { running 0x8000 [(0x2010, 0x80), (0x8000, 0xB9), (0x8002, 0x20)] with y := 0x10 } =
    .next { running 0x8003 [(0x2010, 0x80), (0x8000, 0xB9), (0x8002, 0x20)] with y := 0x10, a := 0x80, p := 0x80 } := rfl
theorem test_ldaIndX_pointer_wraps :
    step (running 0x8000 [(0x00, 0x12), (0xFF, 0x34), (0x1234, 0x77), (0x8000, 0xA1), (0x8001, 0xFF)]) =
    .next { running 0x8002 [(0x00, 0x12), (0xFF, 0x34), (0x1234, 0x77), (0x8000, 0xA1), (0x8001, 0xFF)] with
      a := 0x77 } := rfl
theorem test_ldaIndX_omits_advance :
    step (omitting .opcodeA1 0x8000 [(0x00, 0x12), (0xFF, 0x34), (0x1234, 0x77), (0x8000, 0xA1), (0x8001, 0xFF)]) =
    .next { omitting .opcodeA1 0x8001 [(0x00, 0x12), (0xFF, 0x34), (0x1234, 0x77), (0x8000, 0xA1), (0x8001, 0xFF)] with
      a := 0x77 } := rfl
theorem test_ldaIndY_wraps :
    step { running 0x8000 [(0x00, 0xFF), (0x10, 0x80), (0xFF, 0xF0), (0x8000, 0xB1), (0x8001, 0xFF)] with y := 0x20 } =
    .next { running 0x8002 [(0x00, 0xFF), (0x10, 0x80), (0xFF, 0xF0), (0x8000, 0xB1), (0x8001, 0xFF)] with
      y := 0x20, a := 0x80, p := 0x80 } := rfl
theorem test_ldaIndY_omits_advance :
    step { omitting .opcodeB1 0x8000 [(0x00, 0xFF), (0x10, 0x80), (0xFF, 0xF0), (0x8000, 0xB1), (0x8001, 0xFF)] with
      y := 0x20 } =
    .next { omitting .opcodeB1 0x8001 [(0x00, 0xFF), (0x10, 0x80), (0xFF, 0xF0), (0x8000, 0xB1), (0x8001, 0xFF)] with
      y := 0x20, a := 0x80, p := 0x80 } := rfl
theorem test_tax_corrects_flags : step { running 0x8000 [(0x8000, 0xAA)] with a := 0x05, x := 0x05, p := 0x82 } =
    .next { running 0x8001 [(0x8000, 0xAA)] with a := 0x05, x := 0x05, p := 0x00 } := rfl
theorem test_tax_keeps_unused : step { running 0x8000 [(0x8000, 0xAA)] with a := 0x7F, p := 0x7C } =
    .next { running 0x8001 [(0x8000, 0xAA)] with a := 0x7F, x := 0x7F, p := 0x7C } := rfl
theorem test_inx_wraps : step { running 0x8000 [(0x8000, 0xE8)] with x := 0xFF } =
    .next { running 0x8001 [(0x8000, 0xE8)] with x := 0x00, p := 0x02 } := rfl
theorem test_inx_negative : step { running 0x8000 [(0x8000, 0xE8)] with x := 0x7F } =
    .next { running 0x8001 [(0x8000, 0xE8)] with x := 0x80, p := 0x80 } := rfl
theorem test_hlt : step (running 0x8000 []) = .next { running 0x8001 [] with rs := .halted } := rfl
theorem test_unlisted_sta_stores_nothing : step { running 0x8000 [(0x8000, 0x8D), (0x8002, 0x02)] with a := 0x11 } =
    .next { running 0x8001 [(0x8000, 0x8D), (0x8002, 0x02)] with a := 0x11 } := rfl
theorem test_fetch_fault_keeps_pc : step (running 0xFFFF []) =
    .next { running 0xFFFF [] with rs := .faulted (.outOfBounds 0xFFFF .read) } := rfl
theorem test_high_operand_byte_faults : step (running 0xFFFD [(0xFFFD, 0xAD), (0xFFFE, 0xFF)]) =
    .next { running 0xFFFE [(0xFFFD, 0xAD), (0xFFFE, 0xFF)] with rs := .faulted (.outOfBounds 0xFFFF .read) } := rfl
theorem test_pc_wraps_in_the_corrected_store : step (corrected 0xFFFE [(0xFFFE, 0xA9), (0xFFFF, 0x80)]) =
    .next { corrected 0x0000 [(0xFFFE, 0xA9), (0xFFFF, 0x80)] with a := 0x80, p := 0x80 } := rfl
theorem test_readWord_wraps_in_the_corrected_store :
    readWord (corrected 0x0000 [(0x0000, 0x12), (0xFFFF, 0x34)]) 0xFFFF = .ok 0x1234 := rfl
theorem test_faulted_core_stops : step { running 0x8000 [] with rs := .faulted (.outOfBounds 0xFFFF .read) } =
    .fault (.outOfBounds 0xFFFF .read) := rfl

/-! ### The host (95_test_vectors.md 2.7, 70_reset_and_hazards.md R92 to R96) -/

theorem test_reset_keeps_y :
    hostReset { State.reset with a := 0x12, x := 0x34, y := 0x56, p := 0xFF, pc := 0x1234, mem := [(0xFFFD, 0x80)] } =
    .next { State.reset with y := 0x56, pc := 0x8000, mem := [(0xFFFD, 0x80)] } := rfl
theorem test_load_writes_image_and_vector : hostLoad [0xA9, 0x05, 0x00] State.reset =
    .next { State.reset with mem := [(0x8000, 0xA9), (0x8001, 0x05), (0xFFFD, 0x80)] } := rfl
theorem test_load_and_run_drops_seeds : hostLoadAndRun [0xE8] { State.reset with x := 0xAD, y := 0x07 } =
    .next { running 0x8000 [(0x8000, 0xE8), (0xFFFD, 0x80)] with y := 0x07 } := rfl
theorem test_seed_beyond_store_faults : hostSeed (.byte 0xFFFF 0x01) State.reset =
    .next { State.reset with rs := .faulted (.outOfBounds 0xFFFF .write) } := rfl
theorem test_inspect_beyond_store_refused : inspectByte State.reset 0xFFFF = .error (.hostReadBeyondStore 0xFFFF) := rfl
theorem test_canonical_write : Memory.write [(1, 0x11), (3, 0x33)] 2 0x22 = [(1, 0x11), (2, 0x22), (3, 0x33)] ∧
    Memory.write [(1, 0x11), (3, 0x33)] 3 0x00 = [(1, 0x11)] := by decide

/-! ### Witnesses: states and operands that meet the hypotheses of the statements, clause by clause -/

theorem witness_DecodeOfEncode : (Instr.nopUnlisted 0xFF).wf = true ∧ (Instr.ldaAbsY 0xFFFF).wf = true := by decide
theorem witness_EncodeOfDecode : decode [0xB9, 0xFF, 0xFF, 0x01] = .ok (.ldaAbsY 0xFFFF, [0x01]) := rfl
theorem witness_DecodingIsTotal : operandCount 0xAD ≤ [0x00, 0xDE].length ∧ ([0x00] : List Byte).length < operandCount 0xAD := by
  decide
theorem witness_UnlistedBytes : (0x01 : Byte) ∉ listedOpcodes ∧ (0xFF : Byte) ∉ listedOpcodes := by decide
theorem witness_UpdateZN : exec (.ldaZp 0x10) (running 0x8001 [(0x10, 0x80)]) =
      .next { running 0x8002 [(0x10, 0x80)] with a := 0x80, p := 0x80 } ∧
    exec .inx { running 0x8001 [] with x := 0xFF } = .next { running 0x8001 [] with x := 0x00, p := 0x02 } ∧
    exec .hlt { running 0x8001 [] with p := 0x82 } = .next { running 0x8001 [] with p := 0x82, rs := .halted } :=
  ⟨rfl, rfl, rfl⟩
theorem witness_ReadByte : (0xFFFE : Word).toNat < storeSize State.reset.cfg ∧
    storeSize State.reset.cfg ≤ (0xFFFF : Word).toNat := by decide
theorem witness_ReadWord_ok :
    readByte (running 0 [(0xFFFD, 0x12), (0xFFFE, 0x34)]) 0xFFFD = .ok 0x12 ∧
    readByte (running 0 [(0xFFFD, 0x12), (0xFFFE, 0x34)]) (0xFFFD + 1) = .ok 0x34 := ⟨rfl, rfl⟩
theorem witness_ReadWord_low_fault : readByte (running 0 []) 0xFFFF = .error (.outOfBounds 0xFFFF .read) := rfl
theorem witness_ReadWord_high_fault : readByte (running 0 []) 0xFFFE = .ok 0x00 ∧
    readByte (running 0 []) (0xFFFE + 1) = .error (.outOfBounds 0xFFFF .read) := ⟨rfl, rfl⟩
theorem witness_WriteByte : (running 0 [(0x10, 0x01)]).sound = true ∧
    (0xFFFE : Word).toNat < storeSize (running 0 [(0x10, 0x01)]).cfg ∧
    storeSize (running 0 [(0x10, 0x01)]).cfg ≤ (0xFFFF : Word).toNat := by decide
theorem witness_WriteWord : (corrected 0 [(0x10, 0x01)]).sound = true ∧ inStore (corrected 0 [(0x10, 0x01)]) 0xFFFF = true ∧
    inStore (corrected 0 [(0x10, 0x01)]) (0xFFFF + 1) = true := by decide
theorem witness_ZeroPageModes : readByte (running 0xFFFE [(0xFFFE, 0xFF)]) 0xFFFE = .ok 0xFF ∧
    readByte (running 0xFFFF []) 0xFFFF = .error (.outOfBounds 0xFFFF .read) := ⟨rfl, rfl⟩
theorem witness_AbsoluteModes : readWord (running 0xFFFD [(0xFFFD, 0xFF), (0xFFFE, 0xFF)]) 0xFFFD = .ok 0xFFFF ∧
    readWord (running 0xFFFE []) 0xFFFE = .error (.outOfBounds 0xFFFF .read) := ⟨rfl, rfl⟩

theorem witness_LdaImmediate : (running 0x8000 [(0x8000, 0xA9), (0x8001, 0x05)]).fetches 0xA9 ∧
    readByte (running 0x8000 [(0x8000, 0xA9), (0x8001, 0x05)]) (0x8000 + 1) = .ok 0x05 := ⟨⟨rfl, rfl⟩, rfl⟩
theorem witness_LdaImmediate_fault : (running 0xFFFE [(0xFFFE, 0xA9)]).fetches 0xA9 ∧
    readByte (running 0xFFFE [(0xFFFE, 0xA9)]) (0xFFFE + 1) = .error (.outOfBounds 0xFFFF .read) := ⟨⟨rfl, rfl⟩, rfl⟩
theorem witness_LdaZeroPage : (running 0x8000 [(0x8000, 0xA5), (0x8001, 0xFF)]).fetches 0xA5 ∧
    readByte (running 0x8000 [(0x8000, 0xA5), (0x8001, 0xFF)]) (0x8000 + 1) = .ok 0xFF := ⟨⟨rfl, rfl⟩, rfl⟩
theorem witness_LdaZeroPage_fault : (running 0xFFFE [(0xFFFE, 0xA5)]).fetches 0xA5 ∧
    readByte (running 0xFFFE [(0xFFFE, 0xA5)]) (0xFFFE + 1) = .error (.outOfBounds 0xFFFF .read) := ⟨⟨rfl, rfl⟩, rfl⟩
theorem witness_LdaZeroPageX :
    ({ running 0x8000 [(0x8000, 0xB5), (0x8001, 0xFF)] with x := 0x01 } : State).fetches 0xB5 ∧
    readByte { running 0x8000 [(0x8000, 0xB5), (0x8001, 0xFF)] with x := 0x01 } (0x8000 + 1) = .ok 0xFF := ⟨⟨rfl, rfl⟩, rfl⟩
theorem witness_LdaZeroPageX_fault : (running 0xFFFE [(0xFFFE, 0xB5)]).fetches 0xB5 ∧
    readByte (running 0xFFFE [(0xFFFE, 0xB5)]) (0xFFFE + 1) = .error (.outOfBounds 0xFFFF .read) := ⟨⟨rfl, rfl⟩, rfl⟩
theorem witness_LdaAbsolute : (running 0x8000 [(0x8000, 0xAD), (0x8002, 0xDE), (0xDE00, 0x42)]).fetches 0xAD ∧
    readWord (running 0x8000 [(0x8000, 0xAD), (0x8002, 0xDE), (0xDE00, 0x42)]) (0x8000 + 1) = .ok 0xDE00 ∧
    readByte (running 0x8000 [(0x8000, 0xAD), (0x8002, 0xDE), (0xDE00, 0x42)]) 0xDE00 = .ok 0x42 := ⟨⟨rfl, rfl⟩, rfl, rfl⟩
theorem witness_LdaAbsolute_operand_fault : (running 0xFFFD [(0xFFFD, 0xAD)]).fetches 0xAD ∧
    readWord (running 0xFFFD [(0xFFFD, 0xAD)]) (0xFFFD + 1) = .error (.outOfBounds 0xFFFF .read) := ⟨⟨rfl, rfl⟩, rfl⟩
theorem witness_LdaAbsolute_data_fault : (running 0x8000 [(0x8000, 0xAD), (0x8001, 0xFF), (0x8002, 0xFF)]).fetches 0xAD ∧
    readWord (running 0x8000 [(0x8000, 0xAD), (0x8001, 0xFF), (0x8002, 0xFF)]) (0x8000 + 1) = .ok 0xFFFF ∧
    readByte (running 0x8000 [(0x8000, 0xAD), (0x8001, 0xFF), (0x8002, 0xFF)]) 0xFFFF =
      .error (.outOfBounds 0xFFFF .read) := ⟨⟨rfl, rfl⟩, rfl, rfl⟩
theorem witness_LdaAbsoluteX :
    ({ running 0x8000 [(0x8000, 0xBD), (0x8001, 0xFF), (0x8002, 0xFF)] with x := 0x01 } : State).fetches 0xBD ∧
    readWord { running 0x8000 [(0x8000, 0xBD), (0x8001, 0xFF), (0x8002, 0xFF)] with x := 0x01 } (0x8000 + 1) = .ok 0xFFFF ∧
    (0x0000 : Word).toNat = ((0xFFFF : Word).toNat + (0x01 : Byte).toNat) % 65536 ∧
    readByte { running 0x8000 [(0x8000, 0xBD), (0x8001, 0xFF), (0x8002, 0xFF)] with x := 0x01 } 0x0000 = .ok 0x00 :=
  ⟨⟨rfl, rfl⟩, rfl, rfl, rfl⟩
theorem witness_LdaAbsoluteX_operand_fault : (running 0xFFFD [(0xFFFD, 0xBD)]).fetches 0xBD ∧
    readWord (running 0xFFFD [(0xFFFD, 0xBD)]) (0xFFFD + 1) = .error (.outOfBounds 0xFFFF .read) := ⟨⟨rfl, rfl⟩, rfl⟩
theorem witness_LdaAbsoluteX_data_fault :
    ({ running 0x8000 [(0x8000, 0xBD), (0x8001, 0x80), (0x8002, 0xFF)] with x := 0x7F } : State).fetches 0xBD ∧
    readWord { running 0x8000 [(0x8000, 0xBD), (0x8001, 0x80), (0x8002, 0xFF)] with x := 0x7F } (0x8000 + 1) = .ok 0xFF80 ∧
    (0xFFFF : Word).toNat = ((0xFF80 : Word).toNat + (0x7F : Byte).toNat) % 65536 ∧
    readByte { running 0x8000 [(0x8000, 0xBD), (0x8001, 0x80), (0x8002, 0xFF)] with x := 0x7F } 0xFFFF =
      .error (.outOfBounds 0xFFFF .read) := ⟨⟨rfl, rfl⟩, rfl, rfl, rfl⟩
theorem witness_LdaAbsoluteY :
    ({ running 0x8000 [(0x0001, 0x2A), (0x8000, 0xB9), (0x8001, 0xFE), (0x8002, 0xFF)] with y := 0x03 } : State).fetches 0xB9 ∧
    readWord { running 0x8000 [(0x0001, 0x2A), (0x8000, 0xB9), (0x8001, 0xFE), (0x8002, 0xFF)] with y := 0x03 }
      (0x8000 + 1) = .ok 0xFFFE ∧
    (0x0001 : Word).toNat = ((0xFFFE : Word).toNat + (0x03 : Byte).toNat) % 65536 ∧
    readByte { running 0x8000 [(0x0001, 0x2A), (0x8000, 0xB9), (0x8001, 0xFE), (0x8002, 0xFF)] with y := 0x03 } 0x0001 =
      .ok 0x2A := ⟨⟨rfl, rfl⟩, rfl, rfl, rfl⟩
theorem witness_LdaAbsoluteY_operand_fault : (running 0xFFFE [(0xFFFE, 0xB9)]).fetches 0xB9 ∧
    readWord (running 0xFFFE [(0xFFFE, 0xB9)]) (0xFFFE + 1) = .error (.outOfBounds 0xFFFF .read) := ⟨⟨rfl, rfl⟩, rfl⟩
theorem witness_LdaAbsoluteY_data_fault :
    ({ running 0x8000 [(0x8000, 0xB9), (0x8001, 0xFE), (0x8002, 0xFF)] with y := 0x01 } : State).fetches 0xB9 ∧
    readWord { running 0x8000 [(0x8000, 0xB9), (0x8001, 0xFE), (0x8002, 0xFF)] with y := 0x01 } (0x8000 + 1) = .ok 0xFFFE ∧
    (0xFFFF : Word).toNat = ((0xFFFE : Word).toNat + (0x01 : Byte).toNat) % 65536 ∧
    readByte { running 0x8000 [(0x8000, 0xB9), (0x8001, 0xFE), (0x8002, 0xFF)] with y := 0x01 } 0xFFFF =
      .error (.outOfBounds 0xFFFF .read) := ⟨⟨rfl, rfl⟩, rfl, rfl, rfl⟩

/-- A core about to run LDA ($FF,X) with X = 0: its pointer's high byte is at 0x0000. -/
def indirectXState : State := running 0x8000 [(0x00, 0x12), (0xFF, 0x34), (0x1234, 0x77), (0x8000, 0xA1), (0x8001, 0xFF)]
theorem witness_LdaIndirectX : indirectXState.fetches 0xA1 ∧ readByte indirectXState (indirectXState.pc + 1) = .ok 0xFF ∧
    (0x1234 : Word).toNat = 256 * (indirectXState.mem.read (((0xFF : Byte).toNat + indirectXState.x.toNat + 1) % 256)).toNat +
      (indirectXState.mem.read (((0xFF : Byte).toNat + indirectXState.x.toNat) % 256)).toNat ∧
    readByte indirectXState 0x1234 = .ok 0x77 := ⟨⟨rfl, rfl⟩, rfl, rfl, rfl⟩
/-- The same with a pointer to 0xFFFF. -/
def indirectXFault : State := running 0x8000 [(0x02, 0xFF), (0x03, 0xFF), (0x8000, 0xA1), (0x8001, 0x02)]
theorem witness_LdaIndirectX_data_fault : indirectXFault.fetches 0xA1 ∧
    readByte indirectXFault (indirectXFault.pc + 1) = .ok 0x02 ∧
    (0xFFFF : Word).toNat = 256 * (indirectXFault.mem.read (((0x02 : Byte).toNat + indirectXFault.x.toNat + 1) % 256)).toNat +
      (indirectXFault.mem.read (((0x02 : Byte).toNat + indirectXFault.x.toNat) % 256)).toNat ∧
    readByte indirectXFault 0xFFFF = .error (.outOfBounds 0xFFFF .read) := ⟨⟨rfl, rfl⟩, rfl, rfl, rfl⟩
theorem witness_LdaIndirectX_operand_fault : (running 0xFFFE [(0xFFFE, 0xA1)]).fetches 0xA1 ∧
    readByte (running 0xFFFE [(0xFFFE, 0xA1)]) (0xFFFE + 1) = .error (.outOfBounds 0xFFFF .read) := ⟨⟨rfl, rfl⟩, rfl⟩

/-- A core about to run LDA ($FF),Y with Y = 0x20: the sum wraps to 0x0010. -/
def indirectYState : State :=
  { running 0x8000 [(0x00, 0xFF), (0x10, 0x80), (0xFF, 0xF0), (0x8000, 0xB1), (0x8001, 0xFF)] with y := 0x20 }
theorem witness_LdaIndirectY : indirectYState.fetches 0xB1 ∧ readByte indirectYState (indirectYState.pc + 1) = .ok 0xFF ∧
    (0x0010 : Word).toNat = (256 * (indirectYState.mem.read (((0xFF : Byte).toNat + 1) % 256)).toNat +
      (indirectYState.mem.read (0xFF : Byte).toNat).toNat + indirectYState.y.toNat) % 65536 ∧
    readByte indirectYState 0x0010 = .ok 0x80 := ⟨⟨rfl, rfl⟩, rfl, rfl, rfl⟩
/-- The same with a sum of 0xFFFF. -/
def indirectYFault : State := { indirectYState with y := 0x0F }
theorem witness_LdaIndirectY_data_fault : indirectYFault.fetches 0xB1 ∧
    readByte indirectYFault (indirectYFault.pc + 1) = .ok 0xFF ∧
    (0xFFFF : Word).toNat = (256 * (indirectYFault.mem.read (((0xFF : Byte).toNat + 1) % 256)).toNat +
      (indirectYFault.mem.read (0xFF : Byte).toNat).toNat + indirectYFault.y.toNat) % 65536 ∧
    readByte indirectYFault 0xFFFF = .error (.outOfBounds 0xFFFF .read) := ⟨⟨rfl, rfl⟩, rfl, rfl, rfl⟩
theorem witness_LdaIndirectY_operand_fault : (running 0xFFFE [(0xFFFE, 0xB1)]).fetches 0xB1 ∧
    readByte (running 0xFFFE [(0xFFFE, 0xB1)]) (0xFFFE + 1) = .error (.outOfBounds 0xFFFF .read) := ⟨⟨rfl, rfl⟩, rfl⟩

theorem witness_LoadFrame : (Instr.ldaAbs 0xDE00).mode ≠ .noneAddressing ∧
    exec (.ldaAbs 0xDE00) (running 0x8001 [(0xDE00, 0x42)]) =
      .next { running 0x8003 [(0xDE00, 0x42)] with a := 0x42 } := ⟨by decide, rfl⟩
theorem witness_ImpliedFrame : Instr.tax.mode = .noneAddressing ∧
    exec .tax { running 0x8001 [] with a := 0x80 } = .next { running 0x8001 [] with a := 0x80, x := 0x80, p := 0x80 } :=
  ⟨rfl, rfl⟩
theorem witness_Tax : (running 0x8000 [(0x8000, 0xAA)]).fetches 0xAA := ⟨rfl, rfl⟩
theorem witness_Inx : (running 0x8000 [(0x8000, 0xE8)]).fetches 0xE8 ∧
    exec .inx { running 0x8001 [] with x := 0x7F } = .next { running 0x8001 [] with x := 0x80, p := 0x80 } :=
  ⟨⟨rfl, rfl⟩, rfl⟩
theorem witness_Hlt : (running 0xFFFE []).fetches 0x00 := ⟨rfl, rfl⟩
theorem witness_Unlisted : (0xEA : Byte) ∉ listedOpcodes ∧ (running 0x8000 [(0x8000, 0xEA)]).fetches 0xEA :=
  ⟨by decide, rfl, rfl⟩

/-! ### Witnesses of the step, the runs and the host -/

theorem witness_StepRunsTheDecoded : (running 0xFFFC [(0xFFFC, 0xAD), (0xFFFE, 0x80)]).rs = .running ∧
    readBytes (running 0xFFFC [(0xFFFC, 0xAD), (0xFFFE, 0x80)]) 0xFFFC ([0xAD, 0x00, 0x80] : List Byte).length =
      .ok [0xAD, 0x00, 0x80] ∧
    decode [0xAD, 0x00, 0x80] = .ok (.ldaAbs 0x8000, []) := ⟨rfl, rfl, rfl⟩
theorem witness_StepIsTheWrittenDispatcher : indirectXState.rs = .running ∧
    pseudoStep indirectXState = { indirectXState with a := 0x77, pc := 0x8002 } ∧
    pseudoStep indirectYFault =
      { indirectYFault with pc := 0x8001, rs := .faulted (.outOfBounds 0xFFFF .read) } := ⟨rfl, rfl, rfl⟩
theorem witness_OpcodeFetchFault : (running 0xFFFF []).rs = .running ∧ (running 0xFFFF []).cfg.memSize = .bytes65535 ∧
    (running 0xFFFF []).pc = 0xFFFF := ⟨rfl, rfl, rfl⟩
theorem witness_Faults_at_the_fetch : step (running 0xFFFF []) =
    .next { running 0xFFFF [] with rs := .faulted (.outOfBounds 0xFFFF .read) } := rfl
theorem witness_Faults_after_the_fetch : step (running 0xFFFE [(0xFFFE, 0xA5)]) =
    .next { running 0xFFFF [(0xFFFE, 0xA5)] with rs := .faulted (.outOfBounds 0xFFFF .read) } := rfl
theorem witness_Halted : step (running 0x8000 []) = .next { running 0x8001 [] with rs := .halted } := rfl
theorem witness_PcAdvances :
    step (running 0x8000 [(0x8000, 0xEA)]) = .next (running 0x8001 [(0x8000, 0xEA)]) ∧
    step (running 0x8000 [(0x8000, 0xA9), (0x8001, 0x01)]) =
      .next { running 0x8002 [(0x8000, 0xA9), (0x8001, 0x01)] with a := 0x01 } ∧
    step (running 0x8000 [(0x8000, 0xAD)]) = .next { running 0x8003 [(0x8000, 0xAD)] with p := 0x02 } := ⟨rfl, rfl, rfl⟩
theorem witness_StepWrites :
    step { running 0x8000 [(0x8000, 0xE8)] with x := 0x7F } =
      .next { running 0x8001 [(0x8000, 0xE8)] with x := 0x80, p := 0x80 } ∧
    step (running 0x8000 [(0x8000, 0xA9), (0x8001, 0x01)]) =
      .next { running 0x8002 [(0x8000, 0xA9), (0x8001, 0x01)] with a := 0x01 } := ⟨rfl, rfl⟩
theorem witness_StatusByte : step { running 0x8000 [(0x8000, 0xAA)] with p := 0xFF } =
    .next { running 0x8001 [(0x8000, 0xAA)] with p := 0x7F } := rfl
theorem witness_StepDependsOnBytes :
    (∀ a, a < storeSize (running 0x8000 [(0x8000, 0xE8)]).cfg →
      Memory.read [(0x8000, 0xE8), (0xFFFF, 0x01)] a = (running 0x8000 [(0x8000, 0xE8)]).mem.read a) ∧
    step (running 0x8000 [(0x8000, 0xE8)]) = .next { running 0x8001 [(0x8000, 0xE8)] with x := 0x01 } := by
  refine ⟨fun a ha => ?_, rfl⟩
  have ha' : a < 0xFFFF := ha
  simp [Memory.read, running, ha']
theorem witness_StoppedCore : State.reset.rs = .idle ∧ ({ State.reset with rs := .halted } : State).rs = .halted ∧
    ({ State.reset with rs := .faulted (.outOfBounds 0xFFFF .read) } : State).rs = .faulted (.outOfBounds 0xFFFF .read) :=
  ⟨rfl, rfl, rfl⟩
theorem witness_EveryRunEnds : (omitting .opcodeA1 0x0000 []).rs = .running ∧
    (omitting .opcodeA1 0x0000 []).cfg.memSize = .bytes65535 := ⟨rfl, rfl⟩

/-- `n` bytes of value `v` from `lo` on. -/
def filled (lo n : Nat) (v : Byte) : Memory := (List.range' lo n).map fun a => (a, v)

theorem filled_read (lo n a : Nat) (v : Byte) (h : lo ≤ a) (h' : a < lo + n) : (filled lo n v).read a = v := by
  induction n generalizing lo with
  | zero => omega
  | succ n ih =>
    simp only [filled, List.range'_succ, List.map_cons, Memory.read]
    by_cases he : a = lo
    · simp [he]
    · rw [if_neg (by omega), if_neg he]
      exact ih (lo + 1) (by omega) (by omega)

theorem witness_RunWithoutHaltByte :
    (corrected 0x0000 (filled 0 65536 0xEA)).rs = .running ∧
    (corrected 0x0000 (filled 0 65536 0xEA)).cfg.memSize = .bytes65536 ∧
    ∀ a, a < 65536 → (corrected 0x0000 (filled 0 65536 0xEA)).mem.read a ≠ 0x00 := by
  refine ⟨rfl, rfl, fun a ha => ?_⟩
  have h : (corrected 0x0000 (filled 0 65536 0xEA)).mem.read a = 0xEA := filled_read 0 65536 a 0xEA (by omega) (by omega)
  rw [h]; decide
theorem witness_HaltedRun : (running 0x8000 [(0x8000, 0xEA)]).rs = .running ∧
    haltsWithin 2 (running 0x8000 [(0x8000, 0xEA)]) := ⟨rfl, rfl⟩

theorem witness_LoadFits : State.reset.sound = true ∧ State.reset.rs = .idle ∧
    0x8000 + (List.replicate 0x7FFF (0x11 : Byte)).length ≤ storeSize State.reset.cfg := by
  refine ⟨rfl, rfl, ?_⟩
  rw [List.length_replicate]; decide
theorem witness_LoadTooLong : State.reset.sound = true ∧ State.reset.rs = .idle ∧
    storeSize State.reset.cfg < 0x8000 + (List.replicate 0x8000 (0x11 : Byte)).length := by
  refine ⟨rfl, rfl, ?_⟩
  rw [List.length_replicate]; decide
theorem witness_LoadAndRun : ({ State.reset with x := 0x07, rs := .halted } : State).sound = true ∧
    hostLoadAndRun [0xE8] { State.reset with x := 0x07, rs := .halted } =
      .next { State.reset with pc := 0x8000, rs := .running, mem := [(0x8000, 0xE8), (0xFFFD, 0x80)] } := ⟨rfl, rfl⟩
theorem witness_HostCalls : inStore State.reset 0xFFFE = true ∧ inStore State.reset 0xFFFF = false ∧
    State.reset.rs ≠ .running ∧ (running 0 []).rs = .running := by decide
theorem witness_HostCannotClear :
    hostCalls [.reset, .run, .load [0x00], .loadAndRun [0xE8]]
      { State.reset with rs := .faulted (.outOfBounds 0xFFFF .write) } =
    .next { State.reset with rs := .faulted (.outOfBounds 0xFFFF .write) } := rfl
theorem witness_StoreStaysSound : State.reset.sound = true ∧ step State.reset = .next State.reset ∧
    hostCall (.load [0xE8]) State.reset = .next { State.reset with mem := [(0x8000, 0xE8), (0xFFFD, 0x80)] } ∧
    session [.loadAndRun [0xE8]] 2 State.reset =
      .next { State.reset with x := 0x01, pc := 0x8002, rs := .halted, mem := [(0x8000, 0xE8), (0xFFFD, 0x80)] } :=
  ⟨rfl, rfl, rfl, rfl⟩
theorem witness_InternalDefect : State.reset.rs ≠ .faulted (.internalDefect .noneAddressing) ∧
    session [.seed (.byte 0xFFFF 0x01)] 1 State.reset =
      .next { State.reset with rs := .faulted (.outOfBounds 0xFFFF .write) } := ⟨by decide, rfl⟩

end Sys2Proof.Tests
end

section
/-! The state and what an instruction, a step and a run leave of it (10_state.md). A meaning either completes or takes a
fault; the two inversion lemmas `exec_load_next` and `exec_implied_next` say which states it can answer, and every frame
is read off them. -/
namespace Sys2Proof.Machine

open Sys2Proof

/-! ### The fields after a load's writes -/

@[simp] theorem finishLoad_a (opcode : Byte) (mode : Mode) (v : Byte) (s : State) :
    (finishLoad opcode mode v s).a = v := by simp [finishLoad]
@[simp] theorem finishLoad_x (opcode : Byte) (mode : Mode) (v : Byte) (s : State) :
    (finishLoad opcode mode v s).x = s.x := by simp [finishLoad]
@[simp] theorem finishLoad_y (opcode : Byte) (mode : Mode) (v : Byte) (s : State) :
    (finishLoad opcode mode v s).y = s.y := by simp [finishLoad]
@[simp] theorem finishLoad_p (opcode : Byte) (mode : Mode) (v : Byte) (s : State) :
    (finishLoad opcode mode v s).p = updateZN v s.p := by simp [finishLoad]
@[simp] theorem finishLoad_mem (opcode : Byte) (mode : Mode) (v : Byte) (s : State) :
    (finishLoad opcode mode v s).mem = s.mem := by simp [finishLoad]
@[simp] theorem finishLoad_rs (opcode : Byte) (mode : Mode) (v : Byte) (s : State) :
    (finishLoad opcode mode v s).rs = s.rs := by simp [finishLoad]
@[simp] theorem finishLoad_cfg (opcode : Byte) (mode : Mode) (v : Byte) (s : State) :
    (finishLoad opcode mode v s).cfg = s.cfg := by simp [finishLoad]

/-! ### What a meaning and a step can answer -/

/-- A Load-A form completes with some byte, or takes a fault before any of its writes (R66, R84). -/
theorem exec_load_next {i : Instr} {s t : State} (hm : i.mode ≠ .noneAddressing) (h : exec i s = .next t) :
    (∃ v, t = finishLoad i.opcode i.mode v s) ∨ ∃ f, t = takeFault f s := by
  rcases exec_cases i s with ⟨rfl, _⟩ | ⟨⟨b, rfl⟩, _⟩ | ⟨v, ⟨rfl, _⟩ | ⟨rfl, _⟩, _⟩ | ⟨_, v, he⟩ |
    ⟨_, _, _, he⟩
  · exact absurd rfl hm
  · exact absurd rfl hm
  · exact absurd rfl hm
  · exact absurd rfl hm
  · exact .inl ⟨v, Host.Outcome.next.inj (h.symm.trans he)⟩
  · exact .inr ⟨_, Host.Outcome.next.inj (h.symm.trans he)⟩

/-- An instruction without operand halts, does nothing, or writes X and its flags (R64, R65, R77, R78). -/
theorem exec_implied_next {i : Instr} {s t : State} (hm : i.mode = .noneAddressing) (h : exec i s = .next t) :
    (i = .hlt ∧ t = { s with rs := .halted }) ∨ ((∃ b, i = .nopUnlisted b) ∧ t = s) ∨
    ∃ v, ((i = .tax ∧ v = s.a) ∨ (i = .inx ∧ v = s.x + 1)) ∧ t = setX v s := by
  rcases exec_cases i s with ⟨hi, he⟩ | ⟨hi, he⟩ | ⟨v, hi, he⟩ | ⟨hl, _⟩ | ⟨hl, _⟩
  · exact .inl ⟨hi, Host.Outcome.next.inj (h.symm.trans he)⟩
  · exact .inr (.inl ⟨hi, Host.Outcome.next.inj (h.symm.trans he)⟩)
  · exact .inr (.inr ⟨v, hi, Host.Outcome.next.inj (h.symm.trans he)⟩)
  · exact absurd hm hl
  · exact absurd hm hl

/-- A step of a running core takes a fault of the fetch, with PC at the opcode or one past it, or runs an instruction
whose opcode is the byte at PC (R62). -/
theorem step_running_next {s t : State} (hrs : s.rs = .running) (h : step s = .next t) :
    (∃ f, t = takeFault f s ∨ t = takeFault f (advancePc 1 s)) ∨
    ∃ i, readByte s s.pc = .ok i.opcode ∧ exec i (advancePc 1 s) = .next t := by
  rcases step_running hrs with ⟨_, _, hs⟩ | ⟨_, _, _, hs⟩ | ⟨hp, _, i, _, _, ho, _, hs⟩
  · exact .inl ⟨_, .inl (Host.Outcome.next.inj (h.symm.trans hs))⟩
  · exact .inl ⟨_, .inr (Host.Outcome.next.inj (h.symm.trans hs))⟩
  · exact .inr ⟨i, by rw [readByte_ok hp, ho], hs.symm.trans h⟩

/-! ### What no instruction writes -/

/-- What no instruction, step or run writes: the store, Y, the parameters and the unused status bits (R11, R14, R15,
R36). -/
structure SameBackground (s t : State) : Prop where
  mem : t.mem = s.mem
  y : t.y = s.y
  cfg : t.cfg = s.cfg
  unused : unusedBits t.p = unusedBits s.p

theorem SameBackground.refl (s : State) : SameBackground s s := ⟨rfl, rfl, rfl, rfl⟩

theorem SameBackground.trans {s t u : State} (h : SameBackground s t) (h' : SameBackground t u) : SameBackground s u :=
  ⟨h'.mem.trans h.mem, h'.y.trans h.y, h'.cfg.trans h.cfg, h'.unused.trans h.unused⟩

theorem SameBackground.readByte_eq {s t : State} (h : SameBackground s t) (a : Word) : readByte t a = readByte s a :=
  readByte_congr h.mem h.cfg a

theorem sameBackground_takeFault (f : Fault) (s : State) : SameBackground s (takeFault f s) := ⟨rfl, rfl, rfl, rfl⟩

theorem sameBackground_advancePc (n : Nat) (s : State) : SameBackground s (advancePc n s) := ⟨rfl, rfl, rfl, rfl⟩

theorem sameBackground_setX (v : Byte) (s : State) : SameBackground s (setX v s) := ⟨rfl, rfl, rfl, by simp⟩

theorem sameBackground_finishLoad (opcode : Byte) (mode : Mode) (v : Byte) (s : State) :
    SameBackground s (finishLoad opcode mode v s) := ⟨by simp, by simp, by simp, by simp⟩

theorem exec_sameBackground {i : Instr} {s t : State} (h : exec i s = .next t) : SameBackground s t := by
  by_cases hm : i.mode = .noneAddressing
  · rcases exec_implied_next hm h with ⟨_, rfl⟩ | ⟨_, rfl⟩ | ⟨v, _, rfl⟩
    · exact ⟨rfl, rfl, rfl, rfl⟩
    · exact .refl _
    · exact sameBackground_setX v s
  · rcases exec_load_next hm h with ⟨v, rfl⟩ | ⟨f, rfl⟩
    · exact sameBackground_finishLoad _ _ v s
    · exact sameBackground_takeFault f s

theorem step_running_sameBackground {s t : State} (hrs : s.rs = .running) (h : step s = .next t) :
    SameBackground s t := by
  have hpc := sameBackground_advancePc 1 s
  rcases step_running_next hrs h with ⟨f, rfl | rfl⟩ | ⟨i, _, he⟩
  · exact sameBackground_takeFault f s
  · exact hpc.trans (sameBackground_takeFault f _)
  · exact hpc.trans (exec_sameBackground he)

/-! ### The frames of the instructions and of the step -/

/-- Settles O24: a load's completion writes A, P and PC alone, and a fault taken before it the run state alone. -/
theorem loadFrame : Obligations.LoadFrame := by
  intro i s t hm h
  have hb := exec_sameBackground h
  rcases exec_load_next hm h with ⟨v, rfl⟩ | ⟨f, rfl⟩
  · exact ⟨finishLoad_x .., hb.y, hb.cfg, hb.unused, hb.readByte_eq, .inl (finishLoad_rs ..)⟩
  · exact ⟨rfl, hb.y, hb.cfg, hb.unused, hb.readByte_eq, .inr ⟨f, rfl, rfl, rfl, rfl⟩⟩

/-- Settles O29, by the three states an instruction without operand can answer. -/
theorem impliedFrame : Obligations.ImpliedFrame := by
  intro i s t hm h
  have hb := exec_sameBackground h
  rcases exec_implied_next hm h with ⟨hi, rfl⟩ | ⟨_, rfl⟩ | ⟨v, hi, rfl⟩
  · exact ⟨rfl, hb.y, rfl, hb.cfg, hb.unused, hb.readByte_eq, .inl hi, .inr (.inr ⟨rfl, rfl⟩)⟩
  · exact ⟨rfl, hb.y, rfl, hb.cfg, hb.unused, hb.readByte_eq, .inr rfl, .inr (.inr ⟨rfl, rfl⟩)⟩
  · exact ⟨rfl, hb.y, rfl, hb.cfg, hb.unused, hb.readByte_eq, .inr rfl, hi.imp And.left fun h => .inl h.1⟩

/-- The instructions with an operand are the eight Load-A forms (R43). -/
theorem opcode_mem_of_mode_ne_none {i : Instr} (hm : i.mode ≠ .noneAddressing) :
    i.opcode ∈ ([0xA9, 0xA5, 0xB5, 0xAD, 0xBD, 0xB9, 0xA1, 0xB1] : List Byte) := by
  cases i <;> simp [Instr.mode, Instr.opcode] at hm ⊢

/-- An instruction that changes A has an operand. -/
theorem mode_ne_none_of_exec_a_ne {i : Instr} {s t : State} (h : exec i s = .next t) (ha : t.a ≠ s.a) :
    i.mode ≠ .noneAddressing := by
  intro hm
  obtain ⟨hsame, _⟩ := impliedFrame i s t hm h
  exact ha hsame

/-- An instruction that changes X is TAX or INX. -/
theorem tax_or_inx_of_exec_x_ne {i : Instr} {s t : State} (h : exec i s = .next t) (hx : t.x ≠ s.x) :
    i = .tax ∨ i = .inx := by
  by_cases hm : i.mode = .noneAddressing
  · obtain ⟨_, _, _, _, _, _, _, hi | hi | ⟨hsame, _⟩⟩ := impliedFrame i s t hm h
    · exact .inl hi
    · exact .inr hi
    · exact absurd hsame hx
  · obtain ⟨hsame, _⟩ := loadFrame i s t hm h
    exact absurd hsame hx

/-- An instruction that changes P has an operand or is TAX or INX. -/
theorem flagUpdating_of_exec_p_ne {i : Instr} {s t : State} (h : exec i s = .next t) (hp : t.p ≠ s.p) :
    i.mode ≠ .noneAddressing ∨ i = .tax ∨ i = .inx := by
  by_cases hm : i.mode = .noneAddressing
  · obtain ⟨_, _, _, _, _, _, _, hi | hi | ⟨_, hsame⟩⟩ := impliedFrame i s t hm h
    · exact .inr (.inl hi)
    · exact .inr (.inr hi)
    · exact absurd hsame hp
  · exact .inl hm

/-- Settles O37: a fetch fault changes no register but PC, and an instruction's opcode, the byte at PC, says which
registers it may change. -/
theorem stepWritesOnlyWhatItsOpcodeWrites : Obligations.StepWritesOnlyWhatItsOpcodeWrites := by
  intro s t hrs h
  obtain ⟨hmem, hy, hcfg, hunused⟩ := step_running_sameBackground hrs h
  refine ⟨hmem, hy, hcfg, hunused, ?_⟩
  rcases step_running_next hrs h with ⟨f, rfl | rfl⟩ | ⟨i, hop, he⟩
  · exact ⟨fun ha => absurd rfl ha, fun hx => absurd rfl hx, fun hp => absurd rfl hp⟩
  · exact ⟨fun ha => absurd rfl ha, fun hx => absurd rfl hx, fun hp => absurd rfl hp⟩
  · refine ⟨fun ha => ?_, fun hx => ?_, fun hp => ?_⟩
    · exact ⟨i.opcode, opcode_mem_of_mode_ne_none (mode_ne_none_of_exec_a_ne he ha), hop⟩
    · rcases tax_or_inx_of_exec_x_ne he hx with rfl | rfl
      · exact .inl hop
      · exact .inr hop
    · refine ⟨i.opcode, ?_, hop⟩
      rcases flagUpdating_of_exec_p_ne he hp with hm | rfl | rfl
      · exact List.mem_append_left [0xAA, 0xE8] (opcode_mem_of_mode_ne_none hm)
      · decide
      · decide

/-! ### The flags -/

/-- Z and N are never both set: bit 7 of zero is clear. -/
theorem not_zeroFlag_and_negativeFlag_updateZN (v p : Byte) :
    ¬ (zeroFlag (updateZN v p) = true ∧ negativeFlag (updateZN v p) = true) := by
  rw [zeroFlag_updateZN, negativeFlag_updateZN, decide_eq_true_eq]
  rintro ⟨rfl, hn⟩
  exact absurd hn (by decide)

theorem updateZN_getLsbD_of_ne (v p : Byte) {i : Nat} (h1 : i ≠ 1) (h7 : i ≠ 7) :
    (updateZN v p).getLsbD i = p.getLsbD i := by
  rw [updateZN_getLsbD, if_neg h1, if_neg h7]

/-- Settles O7: `updateZN` bit by bit, and for each kind of instruction the states it can answer. -/
theorem updateZNSetsZeroAndNegativeOnly : Obligations.UpdateZNSetsZeroAndNegativeOnly := by
  refine ⟨fun v p => ⟨rfl, zeroFlag_updateZN v p, negativeFlag_updateZN v p,
    fun _ h1 h7 => updateZN_getLsbD_of_ne v p h1 h7, not_zeroFlag_and_negativeFlag_updateZN v p⟩, ?_, ?_, ?_⟩
  · intro i s t hm h
    rcases exec_load_next hm h with ⟨v, rfl⟩ | ⟨f, rfl⟩
    · exact .inl (by rw [finishLoad_p, finishLoad_a])
    · exact .inr ⟨f, rfl⟩
  · rintro i s t (rfl | rfl) h <;> obtain rfl := Host.Outcome.next.inj h <;> rfl
  · rintro i s t (rfl | ⟨b, rfl⟩) h <;> obtain rfl := Host.Outcome.next.inj h <;> rfl

/-! ### The status byte is read by nothing but its own update -/

/-- The same machine with another status byte. -/
def State.withP (s : State) (q : Byte) : State := { s with p := q }

@[simp] theorem State.withP_pc (s : State) (q : Byte) : (s.withP q).pc = s.pc := rfl
@[simp] theorem State.withP_rs (s : State) (q : Byte) : (s.withP q).rs = s.rs := rfl
@[simp] theorem State.withP_cfg (s : State) (q : Byte) : (s.withP q).cfg = s.cfg := rfl
@[simp] theorem State.withP_mem (s : State) (q : Byte) : (s.withP q).mem = s.mem := rfl

@[simp] theorem readByte_withP (s : State) (q : Byte) (a : Word) : readByte (s.withP q) a = readByte s a :=
  readByte_congr rfl rfl a

@[simp] theorem readBytes_withP (s : State) (q : Byte) (a : Word) (n : Nat) :
    readBytes (s.withP q) a n = readBytes s a n :=
  readBytes_congr (s := s) (t := s.withP q) rfl rfl a n

@[simp] theorem advancePc_withP (n : Nat) (s : State) (q : Byte) :
    advancePc n (s.withP q) = (advancePc n s).withP q := rfl

@[simp] theorem takeFault_withP (f : Fault) (s : State) (q : Byte) :
    takeFault f (s.withP q) = (takeFault f s).withP q := rfl

theorem setA_withP (v : Byte) (s : State) (q : Byte) : setA v (s.withP q) = (setA v s).withP (updateZN v q) := rfl

theorem finishLoad_withP (opcode : Byte) (mode : Mode) (v : Byte) (s : State) (q : Byte) :
    finishLoad opcode mode v (s.withP q) = (finishLoad opcode mode v s).withP (updateZN v q) := by
  cases ho : omitsAdvance s.cfg opcode <;> simp [finishLoad, advanceOperand, setA_withP, ho]

theorem fetch_withP (s : State) (q : Byte) : fetch (s.withP q) = ((fetch s).1.withP q, (fetch s).2) := by
  cases h : readByte s s.pc <;> simp [fetch, h]

/-- A load reads the same byte of its address, or takes the same fault, whatever the status byte. -/
theorem loadFrom_withP (opcode : Byte) (mode : Mode) (ea : Word) (s : State) (q : Byte) :
    ∃ r, loadFrom opcode mode (.ok ea) (s.withP q) = (loadFrom opcode mode (.ok ea) s).withP r := by
  rcases Nat.lt_or_ge ea.toNat (storeSize s.cfg) with hlt | hge
  · exact ⟨_, by rw [loadFrom_ok (s := s.withP q) hlt, loadFrom_ok hlt]; exact finishLoad_withP ..⟩
  · exact ⟨q, by rw [loadFrom_fault (s := s.withP q) hge, loadFrom_fault hge, takeFault_withP]⟩

theorem loadAddress_withP (i : Instr) (s : State) (q : Byte) : loadAddress (s.withP q) i = loadAddress s i := by
  cases i <;> rfl

/-- An instruction that reads no data from memory does one thing in every state. -/
theorem exec_withP_of_loadAddress_none {i : Instr} {s t : State} (q : Byte) (ha : loadAddress s i = none)
    (h : exec i s = .next t) : ∃ r, exec i (s.withP q) = .next (t.withP r) := by
  cases i <;> simp only [loadAddress, reduceCtorEq] at ha <;> obtain rfl := Host.Outcome.next.inj h
  case hlt => exact ⟨q, rfl⟩
  case nopUnlisted => exact ⟨q, rfl⟩
  case tax => exact ⟨updateZN s.a q, rfl⟩
  case inx => exact ⟨updateZN (s.x + 1) q, rfl⟩
  case ldaImm imm => exact ⟨updateZN imm q, congrArg _ (finishLoad_withP ..)⟩

theorem exec_withP {i : Instr} {s t : State} (q : Byte) (h : exec i s = .next t) :
    ∃ r, exec i (s.withP q) = .next (t.withP r) := by
  cases ha : loadAddress s i with
  | none => exact exec_withP_of_loadAddress_none q ha h
  | some ea =>
    obtain ⟨r, hr⟩ := loadFrom_withP i.opcode i.mode ea s q
    rw [exec_of_loadAddress ha] at h
    obtain rfl := Host.Outcome.next.inj h
    exact ⟨r, by rw [exec_of_loadAddress ((loadAddress_withP i s q).trans ha), hr]⟩

/-- The fetch carries the status byte along, and a meaning uses it in `updateZN` alone. -/
theorem step_withP {s t : State} (q : Byte) (h : step s = .next t) : ∃ r, step (s.withP q) = .next (t.withP r) := by
  cases hrs : s.rs with
  | idle =>
    obtain rfl := Host.Outcome.next.inj ((step_idle hrs).symm.trans h)
    exact ⟨q, step_idle hrs⟩
  | halted =>
    obtain rfl := Host.Outcome.next.inj ((step_halted hrs).symm.trans h)
    exact ⟨q, step_halted hrs⟩
  | faulted f => cases (step_faulted hrs).symm.trans h
  | running =>
    rcases hf : fetch s with ⟨u, f | i⟩ <;>
      simp only [step, hrs, hf, State.withP_rs, fetch_withP] at h ⊢
    · obtain rfl := Host.Outcome.next.inj h
      exact ⟨q, by rw [takeFault_withP]⟩
    · exact exec_withP q h

/-- Settles O38: `step_withP` for every state and status byte. -/
theorem statusByteInfluencesOnlyItself : Obligations.StatusByteInfluencesOnlyItself :=
  fun _ _ q h => step_withP q h

/-! ### A core that is not running, and runs -/

theorem not_running_cases {s : State} (h : s.rs ≠ .running) :
    s.rs = .idle ∨ s.rs = .halted ∨ ∃ f, s.rs = .faulted f := by
  cases hrs : s.rs with
  | running => exact absurd hrs h
  | idle => exact .inl rfl
  | halted => exact .inr (.inl rfl)
  | faulted f => exact .inr (.inr ⟨f, rfl⟩)

theorem runSteps_of_not_running {s : State} (k : Nat) (h : s.rs ≠ .running) : runSteps k s = s := by
  cases k with
  | zero => rfl
  | succ k => rcases not_running_cases h with hrs | hrs | ⟨f, hrs⟩ <;> simp only [runSteps, hrs]

/-- A relation that every state has to itself and that every step of a running core extends holds between a state and
every state its run reaches. -/
theorem runSteps_induction {R : State → State → Prop} (hrefl : ∀ s, R s s)
    (hstep : ∀ s t u, s.rs = .running → step s = .next t → R t u → R s u) (k : Nat) (s : State) :
    R s (runSteps k s) := by
  induction k generalizing s with
  | zero => exact hrefl s
  | succ k ih =>
    by_cases hrs : s.rs = .running
    · simp only [runSteps, hrs]
      split
      · next t ht => exact hstep s t _ hrs ht (ih t)
      · exact hrefl s
      · exact hrefl s
    · rw [runSteps_of_not_running _ hrs]
      exact hrefl s

theorem runSteps_sameBackground (k : Nat) (s : State) : SameBackground s (runSteps k s) :=
  runSteps_induction (R := SameBackground) .refl (fun _ _ _ hrs h => (step_running_sameBackground hrs h).trans) k s

/-- Settles O56, by induction over the run: no step writes Y, the store or the parameters. -/
theorem runLeavesYAndMemory : Obligations.RunLeavesYAndMemory := by
  intro k s
  have hb := runSteps_sameBackground k s
  exact ⟨hb.y, hb.mem, hb.cfg⟩

/-- Settles O40, by the run state. -/
theorem stoppedCoreRunsNothing : Obligations.StoppedCoreRunsNothing :=
  ⟨fun _ h => h.elim step_idle step_halted, fun _ _ h => step_faulted h, fun _ k h => runSteps_of_not_running k h⟩

/-! ### Inspection -/

theorem inspectRegisters_of_not_running {s : State} (h : s.rs ≠ .running) :
    inspectRegisters s = .ok { a := s.a, x := s.x, y := s.y, p := s.p, pc := s.pc } := by
  rcases not_running_cases h with hrs | hrs | ⟨f, hrs⟩ <;> simp only [inspectRegisters, hrs]

theorem inspectByte_of_not_running {s : State} (h : s.rs ≠ .running) (a : Word) :
    inspectByte s a = inspectStore s a := by
  rcases not_running_cases h with hrs | hrs | ⟨f, hrs⟩ <;> simp only [inspectByte, hrs]

theorem inspectStore_eq (s : State) (a : Word) :
    inspectStore s a =
      if inStore s a = true then .ok (s.mem.read a.toNat) else .error (.hostReadBeyondStore a.toNat) := by
  by_cases h : a.toNat < storeSize s.cfg
  · simp [inspectStore, inStore, h, Nat.not_le.mpr h]
  · simp [inspectStore, inStore, h, Nat.not_lt.mp h]

/-- Settles O52: inspection of a core that is not running looks at its registers and its store alone. -/
theorem hostSeesRegistersAndStore : Obligations.HostSeesRegistersAndStore := by
  intro s h
  refine ⟨inspectRegisters_of_not_running h, fun a => ?_⟩
  rw [inspectByte_of_not_running h, inspectStore_eq]
  exact ⟨fun ha => by rw [if_pos ha], fun ha => by rw [if_neg (by simp [ha])]⟩

end Sys2Proof.Machine
end

section
/-! The store (20_memory.md): what reads and writes answer, that every step, host call and session keeps it sound, and
that a step sees of it only the bytes below MEM_SIZE. -/
namespace Sys2Proof.Machine

open Sys2Proof

/-! ### Reads -/

/-- Settles O8: the two branches of `readByte`, and the one address that is past a store. -/
theorem readByteAnswersBelowTheStoreSize : Obligations.ReadByteAnswersBelowTheStoreSize :=
  fun s a => ⟨readByte_ok, readByte_error, storeSize_le_iff s.cfg a⟩

theorem readWord_of_readByte_ok {s : State} {a : Word} {lo hi : Byte} (hlo : readByte s a = .ok lo)
    (hhi : readByte s (a + 1) = .ok hi) : readWord s a = .ok (joinBytes hi lo) := by
  simp only [readWord, hlo, hhi]; rfl

theorem readWord_ok {s : State} {a : Word} (ha : a.toNat < storeSize s.cfg) (ha' : (a + 1).toNat < storeSize s.cfg) :
    readWord s a = .ok (joinBytes (s.mem.read (a + 1).toNat) (s.mem.read a.toNat)) :=
  readWord_of_readByte_ok (readByte_ok ha) (readByte_ok ha')

theorem readWord_of_low_error {s : State} {a : Word} {f : Fault} (hlo : readByte s a = .error f) :
    readWord s a = .error f := by
  simp only [readWord, hlo]; rfl

theorem readWord_of_high_error {s : State} {a : Word} {lo : Byte} {f : Fault} (hlo : readByte s a = .ok lo)
    (hhi : readByte s (a + 1) = .error f) : readWord s a = .error f := by
  simp only [readWord, hlo, hhi]; rfl

/-- Settles O9: the word joins the two bytes read, and the low byte's read comes first. -/
theorem readWordIsLittleEndian : Obligations.ReadWordIsLittleEndian := fun _ _ =>
  ⟨fun lo hi hlo hhi => ⟨_, readWord_of_readByte_ok hlo hhi, lowByte_joinBytes hi lo, highByte_joinBytes hi lo⟩,
    fun _ => readWord_of_low_error, fun _ _ => readWord_of_high_error⟩

/-! ### Soundness and writes -/

theorem inStore_iff {s : State} {a : Word} : inStore s a = true ↔ a.toNat < storeSize s.cfg := decide_eq_true_iff

theorem sound_iff {s : State} :
    s.sound = true ↔ s.mem.wf = true ∧ s.mem.within (storeSize s.cfg) = true := Bool.and_eq_true_iff

/-- A write within the store keeps the store sound. -/
theorem sound_write {s : State} {addr : Nat} (v : Byte) (hs : s.sound = true) (ha : addr < storeSize s.cfg) :
    ({ s with mem := s.mem.write addr v } : State).sound = true := by
  obtain ⟨hwf, hin⟩ := sound_iff.mp hs
  exact sound_iff.mpr ⟨Memory.wf_write addr v hwf, Memory.within_write v hin ha⟩

/-- Settles O53: nothing is listed at reset. -/
theorem resetStateIsSound : Obligations.ResetStateIsSound := sound_iff.mpr ⟨rfl, rfl⟩

theorem writeByte_ok {s : State} {a : Word} (v : Byte) (h : a.toNat < storeSize s.cfg) :
    writeByte s a v = .ok { s with mem := s.mem.write a.toNat v } := storeAt_ok v h

/-- Settles O10: a write in the store is one `Memory.write` to a canonical list. -/
theorem writeByteIsReadBack : Obligations.WriteByteIsReadBack := by
  intro s a v hs
  obtain ⟨hwf, _⟩ := sound_iff.mp hs
  refine ⟨fun ha => ⟨_, writeByte_ok v ha, sound_write v hs ha, rfl, ?_, ?_⟩, storeAt_error v⟩
  · exact Memory.read_write_self a.toNat v hwf
  · exact fun b hb => Memory.read_write_other v hwf hb

theorem writeWord_ok {s : State} {a : Word} (w : Word) (ha : a.toNat < storeSize s.cfg)
    (ha' : (a + 1).toNat < storeSize s.cfg) :
    writeWord s a w =
      .ok { s with mem := (s.mem.write a.toNat (lowByte w)).write (a + 1).toNat (highByte w) } := by
  simp only [writeWord, writeByte_ok _ ha]
  exact writeByte_ok _ ha'

/-- An address and its successor differ, at the wrap too. -/
theorem toNat_ne_toNat_add_one (a : Word) : a.toNat ≠ (a + 1).toNat := by
  bv_omega

/-- Settles O11: the second write leaves the first byte, so each byte reads as written and the word joins them. -/
theorem writeWordIsReadBack : Obligations.WriteWordIsReadBack := by
  intro s a w hs ha ha'
  rw [inStore_iff] at ha ha'
  obtain ⟨hwf, _⟩ := sound_iff.mp hs
  have hwf' := Memory.wf_write a.toNat (lowByte w) hwf
  have hlow : ((s.mem.write a.toNat (lowByte w)).write (a + 1).toNat (highByte w)).read a.toNat = lowByte w := by
    rw [Memory.read_write_other _ hwf' (toNat_ne_toNat_add_one a), Memory.read_write_self _ _ hwf]
  have hhigh := Memory.read_write_self (a + 1).toNat (highByte w) hwf'
  refine ⟨_, writeWord_ok w ha ha', ?_, hlow, hhigh, fun b hb hb' => ?_⟩
  · rw [readWord_ok, hlow, hhigh, joinBytes_high_low]
    · exact ha
    · exact ha'
  · rw [Memory.read_write_other _ hwf' hb', Memory.read_write_other _ hwf hb]

/-! ### Steps and the effects of host calls keep the store sound -/

/-- What every transition of the whole system guarantees of the store: the parameters are kept, and so is soundness
(R4, R24). -/
structure KeepsSound (s t : State) : Prop where
  cfg : t.cfg = s.cfg
  sound : s.sound = true → t.sound = true

theorem KeepsSound.of_mem_cfg {s t : State} (hm : t.mem = s.mem) (hc : t.cfg = s.cfg) : KeepsSound s t :=
  ⟨hc, fun hs => by rwa [sound_iff, hm, hc, ← sound_iff]⟩

theorem KeepsSound.refl (s : State) : KeepsSound s s := .of_mem_cfg rfl rfl

theorem KeepsSound.trans {s t u : State} (h : KeepsSound s t) (h' : KeepsSound t u) : KeepsSound s u :=
  ⟨h'.cfg.trans h.cfg, fun hs => h'.sound (h.sound hs)⟩

theorem step_keepsSound {s t : State} (h : step s = .next t) : KeepsSound s t := by
  by_cases hrs : s.rs = .running
  · have hb := step_running_sameBackground hrs h
    exact .of_mem_cfg hb.mem hb.cfg
  · rcases not_running_cases hrs with hi | hh | ⟨f, hf⟩
    · obtain rfl := Host.Outcome.next.inj ((step_idle hi).symm.trans h)
      exact .refl _
    · obtain rfl := Host.Outcome.next.inj ((step_halted hh).symm.trans h)
      exact .refl _
    · cases (step_faulted hf).symm.trans h

/-- A fault keeps the store, so an access keeps it sound when what follows its completion does. -/
theorem withAccess_keepsSound {α : Type} {r : Except Fault α} {s : State} {k : α → State}
    (h : ∀ v, r = .ok v → KeepsSound s (k v)) : KeepsSound s (withAccess r s k) := by
  cases r with
  | ok v => exact h v rfl
  | error f => exact .of_mem_cfg rfl rfl

theorem storeAt_keepsSound {s t : State} {addr : Nat} {v : Byte} (h : storeAt s addr v = .ok t) : KeepsSound s t := by
  rcases Nat.lt_or_ge addr (storeSize s.cfg) with hlt | hge
  · obtain rfl := Except.ok.inj ((storeAt_ok v hlt).symm.trans h)
    exact ⟨rfl, fun hs => sound_write v hs hlt⟩
  · cases (storeAt_error v hge).symm.trans h

theorem writeWord_keepsSound {s t : State} {a w : Word} (h : writeWord s a w = .ok t) : KeepsSound s t := by
  cases hlo : writeByte s a (lowByte w) with
  | error f => simp only [writeWord, hlo] at h; cases h
  | ok u =>
    simp only [writeWord, hlo] at h
    exact (storeAt_keepsSound hlo).trans (storeAt_keepsSound h)

theorem storeImage_keepsSound (s : State) (addr : Nat) (img : List Byte) : KeepsSound s (storeImage s addr img) := by
  induction img generalizing s addr with
  | nil => exact .refl s
  | cons b rest ih => exact withAccess_keepsSound fun t ht => (storeAt_keepsSound ht).trans (ih t (addr + 1))

/-- `load` ends with the image when that faulted, and with the vector's write otherwise (R93). -/
theorem loadEffect_cases (img : List Byte) (s : State) :
    loadEffect img s = storeImage s loadOrigin.toNat img ∨
    loadEffect img s = withAccess (writeWord (storeImage s loadOrigin.toNat img) resetVector loadOrigin)
      (storeImage s loadOrigin.toNat img) id := by
  cases h : (storeImage s loadOrigin.toNat img).rs with
  | faulted f => exact .inl (by simp only [loadEffect, h])
  | idle => exact .inr (by simp only [loadEffect, h])
  | running => exact .inr (by simp only [loadEffect, h])
  | halted => exact .inr (by simp only [loadEffect, h])

theorem loadEffect_keepsSound (img : List Byte) (s : State) : KeepsSound s (loadEffect img s) := by
  have himg := storeImage_keepsSound s loadOrigin.toNat img
  rcases loadEffect_cases img s with h | h <;> rw [h]
  · exact himg
  · exact himg.trans (withAccess_keepsSound fun _ => writeWord_keepsSound)

theorem resetEffect_keepsSound (s : State) : KeepsSound s (resetEffect s) :=
  withAccess_keepsSound fun _ _ => .of_mem_cfg rfl rfl

theorem seedEffect_keepsSound (sd : Seed) (s : State) : KeepsSound s (seedEffect sd s) := by
  cases sd with
  | byte addr v => exact withAccess_keepsSound fun _ => storeAt_keepsSound
  | a v => exact .of_mem_cfg rfl rfl
  | x v => exact .of_mem_cfg rfl rfl
  | y v => exact .of_mem_cfg rfl rfl
  | p v => exact .of_mem_cfg rfl rfl
  | pc v => exact .of_mem_cfg rfl rfl

/-! ### Host calls and sessions -/

/-- A guarded call that answers has acted, or has left a faulted core as it was (R85). -/
theorem hostGuard_next {s effect t : State} (h : hostGuard s effect = .next t) : t = effect ∨ t = s := by
  cases hrs : s.rs <;> simp only [hostGuard, hrs, reduceCtorEq, Host.Outcome.next.injEq] at h
  case idle => exact .inl h.symm
  case halted => exact .inl h.symm
  case faulted f => exact .inr h.symm

/-- Seeding that answers has acted (R96). -/
theorem seedGuard_next {s effect t : State} (h : seedGuard s effect = .next t) : t = effect := by
  cases hrs : s.rs <;> simp only [seedGuard, hrs, reduceCtorEq, Host.Outcome.next.injEq] at h
  case idle => exact h.symm
  case halted => exact h.symm

/-- A composition that answers has gone through a state between. -/
theorem andThen_next {r : Host.Outcome State Fault Refusal} {k : State → Host.Outcome State Fault Refusal} {t : State}
    (h : andThen r k = .next t) : ∃ u, r = .next u ∧ k u = .next t := by
  cases r with
  | next u => exact ⟨u, rfl, h⟩
  | fault f => cases h
  | refused e => cases h

theorem hostGuard_keepsSound {s effect t : State} (he : KeepsSound s effect) (h : hostGuard s effect = .next t) :
    KeepsSound s t := by
  rcases hostGuard_next h with rfl | rfl
  · exact he
  · exact .refl _

theorem hostLoad_keepsSound {img : List Byte} {s t : State} (h : hostLoad img s = .next t) : KeepsSound s t :=
  hostGuard_keepsSound (loadEffect_keepsSound img s) h

theorem hostReset_keepsSound {s t : State} (h : hostReset s = .next t) : KeepsSound s t :=
  hostGuard_keepsSound (resetEffect_keepsSound s) h

theorem hostRun_keepsSound {s t : State} (h : hostRun s = .next t) : KeepsSound s t :=
  hostGuard_keepsSound (effect := { s with rs := .running }) (.of_mem_cfg rfl rfl) h

theorem hostCall_keepsSound {c : HostCall} {s t : State} (h : hostCall c s = .next t) : KeepsSound s t := by
  cases c with
  | load img => exact hostLoad_keepsSound h
  | reset => exact hostReset_keepsSound h
  | run => exact hostRun_keepsSound h
  | loadAndRun img =>
    obtain ⟨u, hu, hrun⟩ := andThen_next h
    obtain ⟨v, hload, hreset⟩ := andThen_next hu
    exact (hostLoad_keepsSound hload).trans ((hostReset_keepsSound hreset).trans (hostRun_keepsSound hrun))
  | seed sd =>
    obtain rfl := seedGuard_next h
    exact seedEffect_keepsSound sd s

/-- A reflexive and transitive relation that every host call respects holds between the ends of any sequence of calls. -/
theorem hostCalls_induction {R : State → State → Prop} (hrefl : ∀ s, R s s)
    (htrans : ∀ s t u, R s t → R t u → R s u) (hcall : ∀ c s t, hostCall c s = .next t → R s t)
    {calls : List HostCall} {s t : State} (h : hostCalls calls s = .next t) : R s t := by
  induction calls generalizing s with
  | nil =>
    obtain rfl := Host.Outcome.next.inj h
    exact hrefl s
  | cons c rest ih =>
    obtain ⟨u, hc, hrest⟩ := andThen_next h
    exact htrans s u t (hcall c s u hc) (ih hrest)

/-- If every step of a running core respects the relation too, it holds between the ends of any session. -/
theorem session_induction {R : State → State → Prop} (hrefl : ∀ s, R s s)
    (htrans : ∀ s t u, R s t → R t u → R s u) (hcall : ∀ c s t, hostCall c s = .next t → R s t)
    (hstep : ∀ s t, s.rs = .running → step s = .next t → R s t)
    {calls : List HostCall} {k : Nat} {s t : State} (h : session calls k s = .next t) : R s t := by
  obtain ⟨u, hcalls, hrun⟩ := andThen_next h
  obtain rfl := Host.Outcome.next.inj hrun
  have hsteps : R u (runSteps k u) :=
    runSteps_induction hrefl (fun s t v hrs hst htv => htrans s t v (hstep s t hrs hst) htv) k u
  exact htrans s u _ (hostCalls_induction hrefl htrans hcall hcalls) hsteps

theorem session_keepsSound {calls : List HostCall} {k : Nat} {s t : State} (h : session calls k s = .next t) :
    KeepsSound s t :=
  session_induction .refl (fun _ _ _ => .trans) (fun _ _ _ => hostCall_keepsSound) (fun _ _ _ => step_keepsSound) h

/-- Settles O54: steps write no memory, and each call's writes are `storeAt`'s, which stay within the store. -/
theorem storeStaysSound : Obligations.StoreStaysSound := by
  refine ⟨fun s t hs h => ?_, fun c s t hs h => ?_, fun calls k s t hs h => ?_⟩
  · exact ⟨(step_keepsSound h).sound hs, (step_keepsSound h).cfg⟩
  · exact ⟨(hostCall_keepsSound h).sound hs, (hostCall_keepsSound h).cfg⟩
  · exact ⟨(session_keepsSound h).sound hs, (session_keepsSound h).cfg⟩

/-! ### A step sees of memory only the bytes of the store -/

/-- The same machine with another memory list. -/
def State.withMem (s : State) (m : Memory) : State := { s with mem := m }

/-- The list reads as the machine's own memory at every address of the store. -/
def ReadsAlike (s : State) (m : Memory) : Prop := ∀ a, a < storeSize s.cfg → m.read a = s.mem.read a

@[simp] theorem State.withMem_x (s : State) (m : Memory) : (s.withMem m).x = s.x := rfl
@[simp] theorem State.withMem_y (s : State) (m : Memory) : (s.withMem m).y = s.y := rfl
@[simp] theorem State.withMem_pc (s : State) (m : Memory) : (s.withMem m).pc = s.pc := rfl
@[simp] theorem State.withMem_rs (s : State) (m : Memory) : (s.withMem m).rs = s.rs := rfl
@[simp] theorem State.withMem_cfg (s : State) (m : Memory) : (s.withMem m).cfg = s.cfg := rfl
@[simp] theorem State.withMem_mem (s : State) (m : Memory) : (s.withMem m).mem = m := rfl

@[simp] theorem advancePc_withMem (n : Nat) (s : State) (m : Memory) :
    advancePc n (s.withMem m) = (advancePc n s).withMem m := rfl

@[simp] theorem takeFault_withMem (f : Fault) (s : State) (m : Memory) :
    takeFault f (s.withMem m) = (takeFault f s).withMem m := rfl

@[simp] theorem setA_withMem (v : Byte) (s : State) (m : Memory) :
    setA v (s.withMem m) = (setA v s).withMem m := rfl

theorem finishLoad_withMem (opcode : Byte) (mode : Mode) (v : Byte) (s : State) (m : Memory) :
    finishLoad opcode mode v (s.withMem m) = (finishLoad opcode mode v s).withMem m := by
  cases ho : omitsAdvance s.cfg opcode <;> simp [finishLoad, advanceOperand, ho]

section
variable {s : State} {m : Memory} (hm : ReadsAlike s m)
include hm

theorem ReadsAlike.advancePc (n : Nat) : ReadsAlike (advancePc n s) m := hm

theorem ReadsAlike.read_zeroPage (b : Byte) : m.read b.toNat = s.mem.read b.toNat := by
  have hb := b.isLt
  refine hm _ ?_
  rcases storeSize_cases s.cfg with ⟨_, h⟩ | ⟨_, h⟩ <;> omega

theorem ReadsAlike.readByte_withMem (a : Word) : readByte (s.withMem m) a = readByte s a := by
  rcases Nat.lt_or_ge a.toNat (storeSize s.cfg) with hlt | hge
  · rw [readByte_ok (s := s.withMem m) hlt, readByte_ok hlt, State.withMem_mem, hm _ hlt]
  · rw [readByte_error (s := s.withMem m) hge, readByte_error hge]

theorem ReadsAlike.readBytes_withMem (a : Word) (n : Nat) : readBytes (s.withMem m) a n = readBytes s a n := by
  induction n generalizing a with
  | zero => rfl
  | succ n ih => simp only [readBytes, hm.readByte_withMem, ih]

theorem ReadsAlike.fetch_withMem : fetch (s.withMem m) = ((fetch s).1.withMem m, (fetch s).2) := by
  cases h : readByte s s.pc with
  | error f => simp only [fetch, State.withMem_pc, hm.readByte_withMem, h]
  | ok opcode =>
    simp only [fetch, State.withMem_pc, hm.readByte_withMem, h, advancePc_withMem, (hm.advancePc 1).readBytes_withMem]

theorem ReadsAlike.loadAddress_withMem (i : Instr) : loadAddress (s.withMem m) i = loadAddress s i := by
  cases i with
  | ldaIndX zp => simp only [loadAddress, State.withMem_x, State.withMem_mem, hm.read_zeroPage]
  | ldaIndY zp => simp only [loadAddress, State.withMem_y, State.withMem_mem, hm.read_zeroPage]
  | _ => rfl

theorem ReadsAlike.loadFrom_withMem (opcode : Byte) (mode : Mode) (ea : Word) :
    loadFrom opcode mode (.ok ea) (s.withMem m) = (loadFrom opcode mode (.ok ea) s).withMem m := by
  rcases Nat.lt_or_ge ea.toNat (storeSize s.cfg) with hlt | hge
  · rw [loadFrom_ok (s := s.withMem m) hlt, loadFrom_ok hlt, finishLoad_withMem, State.withMem_mem, hm _ hlt]
  · rw [loadFrom_fault (s := s.withMem m) hge, loadFrom_fault hge, takeFault_withMem]

end

/-- An instruction that reads no data from memory does one thing whatever the memory. -/
theorem exec_withMem_of_loadAddress_none {i : Instr} {s t : State} (m : Memory) (ha : loadAddress s i = none)
    (h : exec i s = .next t) : exec i (s.withMem m) = .next (t.withMem m) := by
  cases i <;> simp only [loadAddress, reduceCtorEq] at ha <;> obtain rfl := Host.Outcome.next.inj h
  case ldaImm imm => exact congrArg _ (finishLoad_withMem ..)
  case hlt | tax | inx | nopUnlisted => rfl

theorem ReadsAlike.exec_withMem {s t : State} {m : Memory} {i : Instr} (hm : ReadsAlike s m)
    (h : exec i s = .next t) : exec i (s.withMem m) = .next (t.withMem m) := by
  cases ha : loadAddress s i with
  | none => exact exec_withMem_of_loadAddress_none m ha h
  | some ea =>
    rw [exec_of_loadAddress ha] at h
    obtain rfl := Host.Outcome.next.inj h
    rw [exec_of_loadAddress ((hm.loadAddress_withMem i).trans ha), hm.loadFrom_withMem]

/-- The fetch reads the same instruction or takes the same fault, and so does the meaning with its data. -/
theorem ReadsAlike.step_withMem {s t : State} {m : Memory} (hm : ReadsAlike s m) (hrs : s.rs = .running)
    (h : step s = .next t) : step (s.withMem m) = .next (t.withMem m) := by
  rcases fetch_cases s with ⟨_, _, hf⟩ | ⟨_, _, _, hf⟩ | ⟨_, _, i, _, _, _, _, hf⟩ <;>
    simp only [step, hrs, hf, State.withMem_rs, hm.fetch_withMem] at h ⊢
  · obtain rfl := Host.Outcome.next.inj h
    rw [takeFault_withMem]
  · obtain rfl := Host.Outcome.next.inj h
    rw [takeFault_withMem]
  · exact (hm.advancePc 1).exec_withMem h

/-- Settles O39: `step_withMem` for lists that read alike within the store. -/
theorem stepDependsOnReadableBytesOnly : Obligations.StepDependsOnReadableBytesOnly :=
  fun _ _ hrs hm _ h => ReadsAlike.step_withMem hm hrs h

end Sys2Proof.Machine
end

section
/-! The encoding (30_encoding.md): decoder and encoder are each other's inverse, and which bytes the decoder takes. What the
decoder does with an opcode is said once, format by format, in `opcode_hasFormat`. -/
namespace Sys2Proof

/-! ### The operand formats -/

theorem takeByte_eq_ok_iff {opcode : Byte} {make : Byte → Instr} {bs rest : List Byte} {i : Instr} :
    takeByte opcode make bs = .ok (i, rest) ↔ ∃ b, i = make b ∧ bs = b :: rest := by
  cases bs with
  | nil => simp [takeByte]
  | cons b bs => simp [takeByte, eq_comm]

theorem takeByte_short (opcode : Byte) (make : Byte → Instr) {bs : List Byte} (h : bs.length < 1) :
    takeByte opcode make bs = .error (.missingOperand opcode) := by
  obtain rfl := List.length_eq_zero_iff.mp (Nat.lt_one_iff.mp h)
  rfl

/-- The low byte stands first (R40). -/
theorem takeWord_low_high (opcode : Byte) (make : Word → Instr) (w : Word) (rest : List Byte) :
    takeWord opcode make (lowByte w :: highByte w :: rest) = .ok (make w, rest) := by
  simp [takeWord]

theorem takeWord_eq_ok_iff {opcode : Byte} {make : Word → Instr} {bs rest : List Byte} {i : Instr} :
    takeWord opcode make bs = .ok (i, rest) ↔ ∃ w, i = make w ∧ bs = lowByte w :: highByte w :: rest := by
  constructor
  · match bs with
    | [] | [_] => intro h; cases h
    | lo :: hi :: _ =>
      intro h
      cases h
      exact ⟨joinBytes hi lo, rfl, by simp⟩
  · rintro ⟨w, rfl, rfl⟩
    exact takeWord_low_high ..

theorem takeWord_short (opcode : Byte) (make : Word → Instr) {bs : List Byte} (h : bs.length < 2) :
    takeWord opcode make bs = .error (.missingOperand opcode) := by
  match bs, h with
  | [], _ | [_], _ => rfl

/-! ### What the decoder makes of an opcode -/

theorem wf_nopUnlisted_iff {opcode : Byte} :
    (Instr.nopUnlisted opcode).wf = true ↔ listedOpcodes.contains opcode = false := by
  rw [Instr.wf, Bool.not_eq_true']

theorem decode_unlisted {opcode : Byte} (h : listedOpcodes.contains opcode = false) (rest : List Byte) :
    decode (opcode :: rest) = .ok (.nopUnlisted opcode, rest) := by
  simp only [decode, operationOf_unlisted h]

theorem operandCount_unlisted {opcode : Byte} (h : listedOpcodes.contains opcode = false) : operandCount opcode = 0 := by
  simp only [operandCount, operationOf_unlisted h, Operation.mode, operandWidth]

/-- The formats of R38, each with the instructions that an opcode of the format begins and with what the decoder does after
such an opcode: no operand, one byte (`imm8`, `zp8`), or a word (`abs16`). -/
inductive HasFormat (opcode : Byte) : Prop where
  | implied (i : Instr) (count : operandCount opcode = 0) (wf : i.wf = true) (enc : encode i = [opcode])
      (dec : ∀ bs, decode (opcode :: bs) = .ok (i, bs))
  | byte (make : Byte → Instr) (count : operandCount opcode = 1) (wf : ∀ b, (make b).wf = true)
      (enc : ∀ b, encode (make b) = [opcode, b]) (dec : ∀ bs, decode (opcode :: bs) = takeByte opcode make bs)
  | word (make : Word → Instr) (count : operandCount opcode = 2) (wf : ∀ w, (make w).wf = true)
      (enc : ∀ w, encode (make w) = [opcode, lowByte w, highByte w])
      (dec : ∀ bs, decode (opcode :: bs) = takeWord opcode make bs)

/-- Every opcode has one of the three formats (R43 to R45). -/
theorem opcode_hasFormat (opcode : Byte) : HasFormat opcode := by
  rcases operationOf_cases opcode with ⟨rfl, _⟩ | ⟨rfl, _⟩ | ⟨rfl, _⟩ | ⟨rfl, _⟩ | ⟨rfl, _⟩ | ⟨rfl, _⟩ | ⟨rfl, _⟩ |
    ⟨rfl, _⟩ | ⟨rfl, _⟩ | ⟨rfl, _⟩ | ⟨rfl, _⟩ | ⟨hu, _⟩
  · exact .implied .hlt rfl rfl rfl fun _ => rfl
  · exact .byte .ldaImm rfl (fun _ => rfl) (fun _ => rfl) fun _ => rfl
  · exact .byte .ldaZp rfl (fun _ => rfl) (fun _ => rfl) fun _ => rfl
  · exact .byte .ldaZpX rfl (fun _ => rfl) (fun _ => rfl) fun _ => rfl
  · exact .word .ldaAbs rfl (fun _ => rfl) (fun _ => rfl) fun _ => rfl
  · exact .word .ldaAbsX rfl (fun _ => rfl) (fun _ => rfl) fun _ => rfl
  · exact .word .ldaAbsY rfl (fun _ => rfl) (fun _ => rfl) fun _ => rfl
  · exact .byte .ldaIndX rfl (fun _ => rfl) (fun _ => rfl) fun _ => rfl
  · exact .byte .ldaIndY rfl (fun _ => rfl) (fun _ => rfl) fun _ => rfl
  · exact .implied .tax rfl rfl rfl fun _ => rfl
  · exact .implied .inx rfl rfl rfl fun _ => rfl
  · exact .implied (.nopUnlisted opcode) (operandCount_unlisted hu) (wf_nopUnlisted_iff.mpr hu) rfl (decode_unlisted hu)

/-! ### Decoder and encoder -/

theorem decode_encode_append {i : Instr} (h : i.wf = true) (rest : List Byte) :
    decode (encode i ++ rest) = .ok (i, rest) := by
  cases i with
  | ldaAbs base => exact takeWord_low_high 0xAD .ldaAbs base rest
  | ldaAbsX base => exact takeWord_low_high 0xBD .ldaAbsX base rest
  | ldaAbsY base => exact takeWord_low_high 0xB9 .ldaAbsY base rest
  | nopUnlisted opcode => exact decode_unlisted (wf_nopUnlisted_iff.mp h) rest
  | _ => rfl

/-- Settles O3, by the instruction: a word operand is joined back from its two bytes, and well-formedness keeps an unlisted
no-op's byte out of the table. -/
theorem decodeOfEncode : Obligations.DecodeOfEncode := fun _ rest h => decode_encode_append h rest

theorem wf_and_eq_encode_of_decode {bytes rest : List Byte} {i : Instr} (h : decode bytes = .ok (i, rest)) :
    i.wf = true ∧ bytes = encode i ++ rest := by
  cases bytes with
  | nil => cases h
  | cons opcode bs =>
    cases opcode_hasFormat opcode with
    | implied j _ wf enc dec =>
      cases (dec bs).symm.trans h
      exact ⟨wf, by rw [enc]; rfl⟩
    | byte make _ wf enc dec =>
      obtain ⟨b, rfl, rfl⟩ := takeByte_eq_ok_iff.mp ((dec bs).symm.trans h)
      exact ⟨wf b, by rw [enc]; rfl⟩
    | word make _ wf enc dec =>
      obtain ⟨w, rfl, rfl⟩ := takeWord_eq_ok_iff.mp ((dec bs).symm.trans h)
      exact ⟨wf w, by rw [enc]; rfl⟩

/-- Settles O4, by the format of the first byte. -/
theorem encodeOfDecode : Obligations.EncodeOfDecode := fun _ _ _ h => wf_and_eq_encode_of_decode h

/-! ### Which bytes decode -/

theorem decode_of_operandCount_le {opcode : Byte} {rest : List Byte} (h : operandCount opcode ≤ rest.length) :
    ∃ i, decode (opcode :: rest) = .ok (i, rest.drop (operandCount opcode)) ∧ i.length = 1 + operandCount opcode := by
  obtain ⟨i, hd, _, hw⟩ := decode_complete opcode (rest.take (operandCount opcode)) (rest.drop (operandCount opcode))
    (List.length_take_of_le h)
  rw [List.take_append_drop] at hd
  exact ⟨i, hd, by rw [Instr.length, hw]⟩

theorem decode_of_lt_operandCount {opcode : Byte} {rest : List Byte} (h : rest.length < operandCount opcode) :
    decode (opcode :: rest) = .error (.missingOperand opcode) := by
  cases opcode_hasFormat opcode with
  | implied _ count _ _ _ => exact absurd (count ▸ h) (Nat.not_lt_zero _)
  | byte make count _ _ dec => exact (dec rest).trans (takeByte_short opcode make (count ▸ h))
  | word make count _ _ dec => exact (dec rest).trans (takeWord_short opcode make (count ▸ h))

/-- Settles O5: `decode_complete` for the operand bytes at the head of the rest, and the short lists by format. -/
theorem decodingIsTotalOnOpcodes : Obligations.DecodingIsTotalOnOpcodes :=
  fun _ _ => ⟨decode_of_operandCount_le, decode_of_lt_operandCount⟩

/-! ### The count of the unlisted bytes -/

theorem contains_ofNat_iff {n : Nat} (h : n < 256) :
    listedOpcodes.contains (BitVec.ofNat 8 n) = true ↔ n ∈ listedOpcodes.map BitVec.toNat := by
  rw [List.contains_iff_mem, List.mem_map]
  constructor
  · exact fun hm => ⟨_, hm, BitVec.toNat_ofNat n 8 ▸ Nat.mod_eq_of_lt h⟩
  · rintro ⟨b, hb, rfl⟩
    rwa [BitVec.ofNat_toNat, BitVec.setWidth_eq]

theorem filter_unlisted_range :
    ((Finset.range 256).filter fun n => (!listedOpcodes.contains (BitVec.ofNat 8 n)) = true) =
      Finset.range 256 \ (listedOpcodes.map BitVec.toNat).toFinset := by
  ext n
  rw [Finset.mem_filter, Finset.mem_sdiff, List.mem_toFinset]
  refine and_congr_right fun hn => ?_
  rw [← contains_ofNat_iff (Finset.mem_range.mp hn), Bool.not_eq_true', Bool.not_eq_true]

/-- The eleven listed bytes are distinct, so 256 - 11 are left. -/
theorem length_filter_unlisted :
    ((List.range 256).filter fun n => !listedOpcodes.contains (BitVec.ofNat 8 n)).length = 245 := by
  calc _ = ((Finset.range 256).filter fun n => (!listedOpcodes.contains (BitVec.ofNat 8 n)) = true).card := by
        simp only [Finset.card, Finset.filter, Finset.range, Multiset.range, Multiset.filter_coe, Multiset.coe_card,
          Bool.decide_eq_true]
    _ = 256 - listedOpcodes.length := by
        rw [filter_unlisted_range, Finset.card_sdiff_of_subset (by decide), Finset.card_range,
          List.toFinset_card_of_nodup (by decide), List.length_map]

/-! ### The tables -/

/-- Settles O1, row by row. -/
theorem operandWidthTable : Obligations.OperandWidthTable := ⟨rfl, rfl, rfl, rfl, rfl, rfl, rfl, rfl, rfl, rfl⟩

/-- Settles O2, by running the decoder on each of the thirteen byte strings. -/
theorem writtenOutWordsDecode : Obligations.WrittenOutWordsDecode :=
  ⟨rfl, rfl, rfl, rfl, rfl, rfl, rfl, rfl, rfl, rfl, rfl, rfl, rfl⟩

/-- Settles O6: `decode_unlisted` for each such byte, and 256 byte values less the eleven listed. -/
theorem unlistedBytesAreOneByteNoOps : Obligations.UnlistedBytesAreOneByteNoOps := by
  refine ⟨fun opcode rest h => decode_unlisted ?_ rest, length_filter_unlisted⟩
  rwa [← Bool.not_eq_true, List.contains_iff_mem]

end Sys2Proof
end

section
/-! The addressing-mode resolver (40_addressing.md). Each mode but Immediate and the sentinel is one function of the operand
read at PC, since a pointer read in the zero page cannot fault; the statements follow from these equations. -/
namespace Sys2Proof.Machine

open Sys2Proof

/-! ### The addresses as numbers -/

theorem zeroPageIndexed_toNat (b index : Byte) : (zeroPageIndexed b index).toNat = (b.toNat + index.toNat) % 256 := by
  rw [zeroPageIndexed, zext16_toNat, BitVec.toNat_add]

theorem absoluteIndexed_toNat (base : Word) (index : Byte) :
    (absoluteIndexed base index).toNat = (base.toNat + index.toNat) % 65536 := by
  rw [absoluteIndexed, BitVec.toNat_add, zext16_toNat]

/-- The value that a pointer read answers in every state (`readPointer_eq`). -/
def pointerAt (s : State) (p : Byte) : Word := joinBytes (s.mem.read (p + 1).toNat) (s.mem.read p.toNat)

theorem readPointer_eq_pointerAt (s : State) (p : Byte) : readPointer s p = .ok (pointerAt s p) := readPointer_eq s p

theorem pointerAt_toNat (s : State) (p : Byte) :
    (pointerAt s p).toNat = 256 * (s.mem.read ((p.toNat + 1) % 256)).toNat + (s.mem.read p.toNat).toNat := by
  rw [pointerAt, joinBytes_toNat, BitVec.toNat_add]
  rfl

/-- The two wraps of R58: the index's within the pointer's address, and the second byte's after it. -/
theorem pointerAt_indexed_toNat (s : State) (b index : Byte) :
    (pointerAt s (b + index)).toNat = 256 * (s.mem.read ((b.toNat + index.toNat + 1) % 256)).toNat +
      (s.mem.read ((b.toNat + index.toNat) % 256)).toNat := by
  rw [pointerAt_toNat, BitVec.toNat_add, Nat.mod_add_mod]

/-! ### Each mode as a function of its operand read -/

theorem resolve_zeroPage (s : State) : resolve s .zeroPage = zext16 <$> readByte s s.pc :=
  bind_pure_comp _ _

theorem resolve_zeroPageX (s : State) : resolve s .zeroPageX = (zeroPageIndexed · s.x) <$> readByte s s.pc :=
  bind_pure_comp _ _

theorem resolve_zeroPageY (s : State) : resolve s .zeroPageY = (zeroPageIndexed · s.y) <$> readByte s s.pc :=
  bind_pure_comp _ _

theorem resolve_absolute (s : State) : resolve s .absolute = readWord s s.pc := rfl

theorem resolve_absoluteX (s : State) : resolve s .absoluteX = (absoluteIndexed · s.x) <$> readWord s s.pc :=
  bind_pure_comp _ _

theorem resolve_absoluteY (s : State) : resolve s .absoluteY = (absoluteIndexed · s.y) <$> readWord s s.pc :=
  bind_pure_comp _ _

theorem resolve_indirectX (s : State) : resolve s .indirectX = (fun b => pointerAt s (b + s.x)) <$> readByte s s.pc := by
  simp only [resolve, indirectXAddress, readPointer_eq_pointerAt]
  exact bind_pure_comp _ _

theorem resolve_indirectY (s : State) :
    resolve s .indirectY = (fun b => absoluteIndexed (pointerAt s b) s.y) <$> readByte s s.pc := by
  simp only [resolve, indirectYAddress, readPointer_eq_pointerAt]
  exact bind_pure_comp _ _

theorem resolve_noneAddressing (s : State) :
    resolve s .noneAddressing = .error (.internalDefect .noneAddressing) := rfl

/-- Settles O14: `resolve_indirectX` and `resolve_indirectY`, with their addresses as numbers. -/
theorem indirectModesResolve : Obligations.IndirectModesResolve := by
  intro s
  rw [resolve_indirectX, resolve_indirectY]
  refine ⟨fun b hb => ?_, fun f hf => ?_⟩
  · rw [hb]
    exact ⟨⟨_, rfl, pointerAt_indexed_toNat s b s.x⟩, ⟨_, rfl, by rw [absoluteIndexed_toNat, pointerAt_toNat]⟩⟩
  · rw [hf]
    exact ⟨rfl, rfl⟩

/-! ### Which faults resolving can raise -/

/-- The computation answers a value or raises the fault of a read at 0xFFFF with the store of 65535 bytes (R28). -/
def FaultsOnlyPastStore {α : Type} (r : Except Fault α) : Prop := ∀ f, r = .error f → f = .outOfBounds 65535 .read

theorem FaultsOnlyPastStore.bind {α β : Type} {r : Except Fault α} {k : α → Except Fault β}
    (hr : FaultsOnlyPastStore r) (hk : ∀ v, FaultsOnlyPastStore (k v)) : FaultsOnlyPastStore (r >>= k) := by
  cases r with
  | ok v => exact hk v
  | error e => exact fun f h => hr f (congrArg _ (Except.error.inj h))

theorem FaultsOnlyPastStore.map {α β : Type} {r : Except Fault α} (hr : FaultsOnlyPastStore r) (g : α → β) :
    FaultsOnlyPastStore (g <$> r) :=
  bind_pure_comp g r ▸ hr.bind fun _ => nofun

theorem readByte_faultsOnlyPastStore (s : State) (a : Word) : FaultsOnlyPastStore (readByte s a) := by
  intro f hf
  rcases readByte_cases s a with ⟨_, h⟩ | ⟨_, _, h⟩ <;> cases h.symm.trans hf
  rfl

theorem readWord_faultsOnlyPastStore (s : State) (a : Word) : FaultsOnlyPastStore (readWord s a) :=
  (readByte_faultsOnlyPastStore s a).bind fun _ => (readByte_faultsOnlyPastStore s (a + 1)).bind fun _ => nofun

theorem resolve_faultsOnlyPastStore (s : State) {mode : Mode} (hm : mode ≠ .noneAddressing) :
    FaultsOnlyPastStore (resolve s mode) := by
  have hb := readByte_faultsOnlyPastStore s s.pc
  have hw := readWord_faultsOnlyPastStore s s.pc
  cases mode with
  | immediate => exact nofun
  | zeroPage => exact resolve_zeroPage s ▸ hb.map _
  | zeroPageX => exact resolve_zeroPageX s ▸ hb.map _
  | zeroPageY => exact resolve_zeroPageY s ▸ hb.map _
  | absolute => exact resolve_absolute s ▸ hw
  | absoluteX => exact resolve_absoluteX s ▸ hw.map _
  | absoluteY => exact resolve_absoluteY s ▸ hw.map _
  | indirectX => exact resolve_indirectX s ▸ hb.map _
  | indirectY => exact resolve_indirectY s ▸ hb.map _
  | noneAddressing => exact absurd rfl hm

/-- Settles O15: any other mode faults past the store alone, and the sentinel always with its own record. -/
theorem onlyTheSentinelIsAnInternalDefect : Obligations.OnlyTheSentinelIsAnInternalDefect := by
  intro s mode m
  constructor
  · intro h
    by_cases hm : mode = .noneAddressing
    · subst hm
      cases h
      exact ⟨rfl, rfl⟩
    · cases resolve_faultsOnlyPastStore s hm _ h
  · rintro ⟨rfl, rfl⟩
    exact resolve_noneAddressing s

/-! ### The zero-page and the absolute modes -/

/-- Settles O12, by the equations of the three modes, with their addresses as numbers. -/
theorem zeroPageModesResolve : Obligations.ZeroPageModesResolve := by
  intro s
  rw [resolve_zeroPage, resolve_zeroPageX, resolve_zeroPageY]
  refine ⟨rfl, fun b hb => ?_, fun f hf => ?_⟩
  · rw [hb]
    exact ⟨⟨_, rfl, zext16_toNat b⟩, ⟨_, rfl, zeroPageIndexed_toNat b s.x⟩, ⟨_, rfl, zeroPageIndexed_toNat b s.y⟩⟩
  · rw [hf]
    exact ⟨rfl, rfl, rfl⟩

/-- Settles O13, by the equations of the three modes, with their addresses as numbers. -/
theorem absoluteModesResolve : Obligations.AbsoluteModesResolve := by
  intro s
  rw [resolve_absolute, resolve_absoluteX, resolve_absoluteY]
  refine ⟨fun w hw => ?_, fun f hf => ?_⟩
  · rw [hw]
    exact ⟨rfl, ⟨_, rfl, absoluteIndexed_toNat w s.x⟩, ⟨_, rfl, absoluteIndexed_toNat w s.y⟩⟩
  · rw [hf]
    exact ⟨rfl, rfl, rfl⟩

end Sys2Proof.Machine
end

section
/-! Dispatch (41_dispatch.md): the step is the dispatcher as the spec writes it, a step halts on 0x00 alone and otherwise
moves PC forward, and how runs end. What a step does after its opcode fetch is said once for every operand, and so is how
it leaves the run state and PC. -/
namespace Sys2Proof.Machine

open Sys2Proof

/-! ### A step after its opcode fetch -/

theorem step_of_fetch_error {s t : State} {f : Fault} (hrs : s.rs = .running) (h : fetch s = (t, .error f)) :
    step s = .next (takeFault f t) := by
  simp only [step, hrs, h]

theorem step_of_fetch_ok {s t : State} {i : Instr} (hrs : s.rs = .running) (h : fetch s = (t, .ok i)) :
    step s = exec i t := by
  simp only [step, hrs, h]

theorem step_of_opcode_error {s : State} {f : Fault} (hrs : s.rs = .running) (h : readByte s s.pc = .error f) :
    step s = .next (takeFault f s) :=
  step_of_fetch_error hrs (by simp only [fetch, h])

theorem decodeFetched_of_decode {bytes rest : List Byte} {i : Instr} (h : decode bytes = .ok (i, rest)) :
    decodeFetched bytes = .ok i := by
  simp only [decodeFetched, h]

theorem readBytes_succ_eq_ok_iff {s : State} {a : Word} {n : Nat} {bytes : List Byte} :
    readBytes s a (n + 1) = .ok bytes ↔
      ∃ b bs, bytes = b :: bs ∧ readByte s a = .ok b ∧ readBytes s (a + 1) n = .ok bs := by
  cases hb : readByte s a <;> cases hbs : readBytes s (a + 1) n <;> simp only [readBytes, hb, hbs] <;>
    simp [bind, Except.bind, pure, Except.pure, eq_comm]

theorem readBytes_cons_eq_ok_iff {s : State} {a : Word} {n : Nat} {b : Byte} {bs : List Byte} :
    readBytes s a (n + 1) = .ok (b :: bs) ↔ readByte s a = .ok b ∧ readBytes s (a + 1) n = .ok bs := by
  simp only [readBytes_succ_eq_ok_iff, List.cons.injEq]
  constructor
  · rintro ⟨_, _, ⟨rfl, rfl⟩, hb, hbs⟩
    exact ⟨hb, hbs⟩
  · exact fun ⟨hb, hbs⟩ => ⟨b, bs, ⟨rfl, rfl⟩, hb, hbs⟩

theorem readBytes_one (s : State) (a : Word) : readBytes s a 1 = ([·]) <$> readByte s a := by
  cases h : readByte s a <;> simp only [readBytes, h] <;> rfl

theorem readBytes_two (s : State) (a : Word) :
    readBytes s a 2 = (fun w => [lowByte w, highByte w]) <$> readWord s a := by
  cases hlo : readByte s a with
  | error f => simp only [readBytes, readWord, hlo]; rfl
  | ok lo =>
    cases hhi : readByte s (a + 1) <;> simp only [readBytes, readWord, hlo, hhi] <;>
      simp [bind, Except.bind, pure, Except.pure, Functor.map, Except.map]

section
variable {s : State} {opcode : Byte} (h : s.fetches opcode)
include h

/-- After the opcode come the operand's bytes, and the decoder sees them all. -/
theorem fetch_of_fetches :
    fetch s = (advancePc 1 s, readBytes s (s.pc + 1) (operandCount opcode) >>= fun bs => decodeFetched (opcode :: bs)) := by
  obtain ⟨_, hop⟩ := h
  have hcongr := readBytes_congr (s := s) (t := advancePc 1 s) rfl rfl
  simp only [fetch, hop, hcongr]
  rfl

theorem step_of_operand {bs rest : List Byte} {i : Instr} (hr : readBytes s (s.pc + 1) (operandCount opcode) = .ok bs)
    (hd : decode (opcode :: bs) = .ok (i, rest)) : step s = exec i (advancePc 1 s) := by
  refine step_of_fetch_ok h.1 ?_
  rw [fetch_of_fetches h, hr]
  exact congrArg _ (decodeFetched_of_decode hd)

theorem step_of_operand_error {f : Fault} (hr : readBytes s (s.pc + 1) (operandCount opcode) = .error f) :
    step s = .next (takeFault f (advancePc 1 s)) :=
  step_of_fetch_error h.1 (by rw [fetch_of_fetches h, hr]; rfl)

theorem step_implied {i : Instr} (hn : operandCount opcode = 0) (hd : decode [opcode] = .ok (i, [])) :
    step s = exec i (advancePc 1 s) :=
  step_of_operand h (by rw [hn]; rfl) hd

/-- An operand that is read as a byte or a word: the read's fault comes first, then the instruction's meaning. -/
theorem step_operand {α : Type} {r : Except Fault α} {bytesOf : α → List Byte} {make : α → Instr} {k : α → State}
    (hr : readBytes s (s.pc + 1) (operandCount opcode) = bytesOf <$> r)
    (hd : ∀ v, decode (opcode :: bytesOf v) = .ok (make v, []))
    (he : ∀ v, exec (make v) (advancePc 1 s) = .next (k v)) : step s = .next (withAccess r (advancePc 1 s) k) := by
  cases r with
  | ok v => exact (step_of_operand h hr (hd v)).trans (he v)
  | error f => exact step_of_operand_error h hr

end

/-! ### The step is the written dispatcher -/

theorem withAccess_bind {α β : Type} (r : Except Fault α) (g : α → Except Fault β) (s : State) (k : β → State) :
    withAccess (r >>= g) s k = withAccess r s fun v => withAccess (g v) s k := by
  cases r <;> rfl

/-- A load whose address is computed from an operand read takes that read's fault first. -/
theorem loadFrom_bind {α : Type} (opcode : Byte) (mode : Mode) (r : Except Fault α) (g : α → Except Fault Word)
    (s : State) :
    loadFrom opcode mode (r >>= g) s = withAccess r s fun v => loadFrom opcode mode (g v) s := by
  cases r <;> rfl

theorem pseudoExecute_loadA {opcode : Byte} {mode : Mode} (ho : operationOf opcode = .loadA mode) (s : State) :
    pseudoExecute opcode s = loadFrom opcode mode (resolve s mode) s := by
  simp only [pseudoExecute, ho, loadFrom, withAccess_bind, finishLoad]

/-- An opcode that is not Load-A's decodes alone, to an instruction that means what R63 writes. -/
theorem implied_decodes {opcode : Byte} (h : ∀ mode, operationOf opcode ≠ .loadA mode) :
    operandCount opcode = 0 ∧
      ∃ i, decode [opcode] = .ok (i, []) ∧ ∀ s, exec i s = .next (pseudoExecute opcode s) := by
  cases ho : operationOf opcode <;> simp only [operandCount, decode, pseudoExecute, ho]
  case loadA mode => exact absurd ho (h mode)
  case halt | transferAToX | incrementX | unlisted => exact ⟨rfl, _, rfl, fun _ => rfl⟩

section
variable {s : State} {opcode : Byte} {mode : Mode} (h : s.fetches opcode)
include h

theorem step_loadA_of_operand {α : Type} {r : Except Fault α} {bytesOf : α → List Byte} {g : α → Except Fault Word}
    (make : α → Instr) (hr : readBytes s (s.pc + 1) (operandCount opcode) = bytesOf <$> r)
    (hd : ∀ v, decode (opcode :: bytesOf v) = .ok (make v, []))
    (he : ∀ v, exec (make v) (advancePc 1 s) = .next (loadFrom opcode mode (g v) (advancePc 1 s)))
    (hres : resolve (advancePc 1 s) mode = r >>= g) :
    step s = .next (loadFrom opcode mode (resolve (advancePc 1 s) mode) (advancePc 1 s)) := by
  rw [step_operand h hr hd he, hres, loadFrom_bind]

/-- The operand that the fetch reads is the one that the resolver reads at PC, so a Load-A step loads from the resolved
address. -/
theorem step_loadA (ho : operationOf opcode = .loadA mode) :
    step s = .next (loadFrom opcode mode (resolve (advancePc 1 s) mode) (advancePc 1 s)) := by
  have byte := readBytes_one s (s.pc + 1)
  have word := readBytes_two s (s.pc + 1)
  rcases operationOf_cases opcode with ⟨rfl, ho'⟩ | ⟨rfl, ho'⟩ | ⟨rfl, ho'⟩ | ⟨rfl, ho'⟩ | ⟨rfl, ho'⟩ | ⟨rfl, ho'⟩ |
    ⟨rfl, ho'⟩ | ⟨rfl, ho'⟩ | ⟨rfl, ho'⟩ | ⟨rfl, ho'⟩ | ⟨rfl, ho'⟩ | ⟨_, ho'⟩ <;> cases ho'.symm.trans ho
  · exact step_operand h byte (fun _ => rfl) fun _ => rfl
  · exact step_loadA_of_operand h .ldaZp byte (fun _ => rfl) (fun _ => rfl) rfl
  · exact step_loadA_of_operand h .ldaZpX byte (fun _ => rfl) (fun _ => rfl) rfl
  · exact step_loadA_of_operand h .ldaAbs word (takeWord_low_high 0xAD _ · []) (fun _ => rfl) (bind_pure _).symm
  · exact step_loadA_of_operand h .ldaAbsX word (takeWord_low_high 0xBD _ · []) (fun _ => rfl) rfl
  · exact step_loadA_of_operand h .ldaAbsY word (takeWord_low_high 0xB9 _ · []) (fun _ => rfl) rfl
  · exact step_loadA_of_operand h .ldaIndX byte (fun _ => rfl) (fun _ => rfl) rfl
  · exact step_loadA_of_operand h .ldaIndY byte (fun _ => rfl) (fun _ => rfl) rfl

theorem pseudoStep_of_fetches : pseudoStep s = pseudoExecute opcode (advancePc 1 s) := by
  obtain ⟨_, hop⟩ := h
  rw [pseudoStep, hop, withAccess_ok]

theorem step_eq_pseudoExecute : step s = .next (pseudoExecute opcode (advancePc 1 s)) := by
  by_cases hl : ∃ mode, operationOf opcode = .loadA mode
  · obtain ⟨mode, ho⟩ := hl
    rw [pseudoExecute_loadA ho, step_loadA h ho]
  · obtain ⟨hn, i, hd, he⟩ := implied_decodes (not_exists.mp hl)
    rw [step_implied h hn hd, he]

end

/-- Settles O33: a fetched opcode runs as R63 writes it, and a failed opcode fetch takes its fault in either account. -/
theorem stepIsTheWrittenDispatcher : Obligations.StepIsTheWrittenDispatcher := by
  intro s hrs
  cases hop : readByte s s.pc with
  | ok opcode => rw [step_eq_pseudoExecute ⟨hrs, hop⟩, pseudoStep_of_fetches ⟨hrs, hop⟩]
  | error f => rw [step_of_opcode_error hrs hop, pseudoStep, hop, withAccess_error]

/-! ### Halt, the unlisted opcodes and the decoded instruction -/

/-- Settles O27, by the dispatcher's Halt branch. -/
theorem hltHaltsAndChangesNothingElse : Obligations.HltHaltsAndChangesNothingElse :=
  ⟨fun _ => rfl, fun _ h => step_eq_pseudoExecute h⟩

/-- Settles O28: a byte outside the table is dispatched to nothing. -/
theorem unlistedOpcodeOnlyAdvancesPc : Obligations.UnlistedOpcodeOnlyAdvancesPc := by
  refine ⟨fun _ _ => rfl, fun opcode s hu h => ?_⟩
  have ho : operationOf opcode = .unlisted := operationOf_unlisted (by simpa using hu)
  rw [step_eq_pseudoExecute h, pseudoExecute, ho]
  rfl

/-- Bytes that can be read can be read without those after them. -/
theorem readBytes_of_append {s : State} {a : Word} {bs rest : List Byte}
    (h : readBytes s a (bs ++ rest).length = .ok (bs ++ rest)) : readBytes s a bs.length = .ok bs := by
  induction bs generalizing a with
  | nil => rfl
  | cons b bs ih =>
    obtain ⟨hb, hbs⟩ := readBytes_cons_eq_ok_iff.mp h
    exact readBytes_cons_eq_ok_iff.mpr ⟨hb, ih hbs⟩

theorem operandCount_opcode {i : Instr} (h : i.wf = true) : operandCount i.opcode = i.operandBytes.length := by
  cases i with
  | nopUnlisted opcode => exact operandCount_unlisted (wf_nopUnlisted_iff.mp h)
  | _ => rfl

/-- Settles O30: the bytes are the instruction's own and what follows it, and the fetch reads its own alone. -/
theorem stepRunsTheDecodedInstruction : Obligations.StepRunsTheDecodedInstruction := by
  intro s bytes rest i hrs hread hdec
  obtain ⟨hwf, rfl⟩ := wf_and_eq_encode_of_decode hdec
  obtain ⟨hop, hoperand⟩ := readBytes_cons_eq_ok_iff.mp (readBytes_of_append hread)
  rw [← operandCount_opcode hwf] at hoperand
  exact ⟨hwf, step_of_operand ⟨hrs, hop⟩ hoperand (List.append_nil _ ▸ decode_encode_append hwf [])⟩

/-- Settles O31: 0xFFFF is the address past the store of 65535 bytes. -/
theorem opcodeFetchFaultLeavesPc : Obligations.OpcodeFetchFaultLeavesPc := by
  intro s hrs hc hpc
  have hpast := (storeSize_le_iff s.cfg s.pc).mpr ⟨hc, hpc⟩
  exact step_of_opcode_error hrs (by rw [readByte_error hpast, hpc]; rfl)

/-! ### How a step leaves the run state -/

theorem opcode_eq_zero_iff {i : Instr} (h : i.wf = true) : i.opcode = 0x00 ↔ i = .hlt := by
  cases i with
  | nopUnlisted opcode =>
    have hne : opcode ≠ 0x00 := by
      rintro rfl
      exact absurd h (by decide)
    simpa [Instr.opcode] using hne
  | _ => simp [Instr.opcode]

/-- HLT halts; any other meaning leaves the run state or takes a fault, which only the store of 65535 bytes has. -/
theorem exec_rs_cases {i : Instr} {s t : State} (h : exec i s = .next t) :
    (i = .hlt ∧ t.rs = .halted) ∨
    (i ≠ .hlt ∧ (t.rs = s.rs ∨ s.cfg.memSize = .bytes65535 ∧ ∃ f, t.rs = .faulted f)) := by
  rcases exec_cases i s with ⟨hi, he⟩ | ⟨⟨b, rfl⟩, he⟩ | ⟨v, hi, he⟩ | ⟨hm, v, he⟩ | ⟨hm, hc, _, he⟩ <;>
    obtain rfl := Host.Outcome.next.inj (he.symm.trans h)
  · exact .inl ⟨hi, rfl⟩
  · exact .inr ⟨nofun, .inl rfl⟩
  · refine .inr ⟨?_, .inl rfl⟩
    rcases hi with ⟨rfl, _⟩ | ⟨rfl, _⟩ <;> exact nofun
  · refine .inr ⟨?_, .inl (finishLoad_rs ..)⟩
    rintro rfl
    exact hm rfl
  · refine .inr ⟨?_, .inr ⟨hc, _, rfl⟩⟩
    rintro rfl
    exact hm rfl

/-- A step of a running core halts on 0x00, and on any other byte it goes on running or takes a fault, which only the store
of 65535 bytes has. -/
theorem step_running_rs_cases {s t : State} (hrs : s.rs = .running) (h : step s = .next t) :
    (readByte s s.pc = .ok 0x00 ∧ t.rs = .halted) ∨
    (readByte s s.pc ≠ .ok 0x00 ∧ (t.rs = .running ∨ s.cfg.memSize = .bytes65535 ∧ ∃ f, t.rs = .faulted f)) := by
  rcases step_running hrs with ⟨hc, hp, hs⟩ | ⟨hp, hc, hr, hs⟩ | ⟨hp, bs, i, _, hd, ho, _, hs⟩
  · obtain rfl := Host.Outcome.next.inj (hs.symm.trans h)
    exact .inr ⟨by rw [readByte_error ((storeSize_le_iff s.cfg s.pc).mpr ⟨hc, hp⟩)]; exact nofun, .inr ⟨hc, _, rfl⟩⟩
  · obtain rfl := Host.Outcome.next.inj (hs.symm.trans h)
    refine .inr ⟨fun hop => ?_, .inr ⟨hc, _, rfl⟩⟩
    have hzero := Except.ok.inj ((readByte_ok hp).symm.trans hop)
    rw [hzero] at hr
    cases hr
  · obtain ⟨hwf, _⟩ := wf_and_eq_encode_of_decode hd
    rw [readByte_ok hp, ← ho, ne_eq, Except.ok.injEq, opcode_eq_zero_iff hwf]
    have hcases := exec_rs_cases (hs.symm.trans h)
    rwa [advancePc_rs, advancePc_cfg, hrs] at hcases

/-- Settles O35, by the three run states a step can leave. -/
theorem haltedOnlyByOpcodeZero : Obligations.HaltedOnlyByOpcodeZero := by
  intro s t hrs h
  rcases step_running_rs_cases hrs h with ⟨hop, ht⟩ | ⟨hop, ht⟩
  · exact ⟨fun _ => hop, fun _ => ht⟩
  · refine ⟨fun hh => ?_, fun h0 => absurd h0 hop⟩
    rcases ht with ht | ⟨_, f, ht⟩ <;> cases ht.symm.trans hh

/-! ### How a step moves PC -/

theorem operandWidth_le_two (mode : Mode) : operandWidth mode ≤ 2 := by
  cases mode <;> decide

theorem finishLoad_pc (opcode : Byte) (mode : Mode) (v : Byte) (s : State) :
    ∃ n ≤ operandWidth mode, (finishLoad opcode mode v s).pc = s.pc + BitVec.ofNat 16 n := by
  rcases advanceOperand_cases opcode mode (setA v s) with ⟨_, h⟩ | ⟨_, h⟩ <;> rw [finishLoad, h]
  · exact ⟨0, Nat.zero_le _, (BitVec.add_zero s.pc).symm⟩
  · exact ⟨_, le_rfl, rfl⟩

/-- A meaning moves PC by the operand's width or, where the advance is left out, not at all (R63). -/
theorem exec_pc {i : Instr} {s t : State} (h : exec i s = .next t) :
    ∃ n ≤ operandWidth i.mode, t.pc = s.pc + BitVec.ofNat 16 n := by
  have stays : ∀ u : State, u.pc = s.pc → ∃ n ≤ operandWidth i.mode, u.pc = s.pc + BitVec.ofNat 16 n :=
    fun u hu => ⟨0, Nat.zero_le _, hu.trans (BitVec.add_zero s.pc).symm⟩
  rcases exec_cases i s with ⟨_, he⟩ | ⟨_, he⟩ | ⟨v, _, he⟩ | ⟨_, v, he⟩ | ⟨_, _, _, he⟩ <;>
    obtain rfl := Host.Outcome.next.inj (he.symm.trans h)
  · exact stays _ rfl
  · exact stays _ rfl
  · exact stays _ rfl
  · exact finishLoad_pc ..
  · exact stays _ rfl

/-- A step that leaves the core running has read the opcode and its operand, and moves PC past the opcode and within the
operand's end. -/
theorem step_stays_running {s t : State} (hrs : s.rs = .running) (h : step s = .next t) (ht : t.rs = .running) :
    ∃ opcode bs n, readByte s s.pc = .ok opcode ∧ readBytes s (s.pc + 1) (operandCount opcode) = .ok bs ∧
      n ≤ operandCount opcode ∧ t.pc = s.pc + 1 + BitVec.ofNat 16 n := by
  rcases step_running hrs with ⟨_, _, hs⟩ | ⟨_, _, _, hs⟩ | ⟨hp, bs, i, hr, _, _, hw, hs⟩
  · obtain rfl := Host.Outcome.next.inj (hs.symm.trans h)
    cases ht
  · obtain rfl := Host.Outcome.next.inj (hs.symm.trans h)
    cases ht
  · obtain ⟨n, hn, hpc⟩ := exec_pc (hs.symm.trans h)
    exact ⟨_, bs, n, readByte_ok hp, hr, hw ▸ hn, hpc⟩

/-- Settles O36: past the opcode's one byte, at most two operand bytes. -/
theorem pcAdvancesByOneTwoOrThree : Obligations.PcAdvancesByOneTwoOrThree := by
  intro s t hrs h ht
  obtain ⟨opcode, _, n, _, _, hn, hpc⟩ := step_stays_running hrs h ht
  have hn2 : n ≤ 2 := hn.trans (operandWidth_le_two _)
  rw [hpc]
  interval_cases n
  · exact .inl (by bv_omega)
  · exact .inr (.inl (by bv_omega))
  · exact .inr (.inr (by bv_omega))

/-! ### How runs end -/

theorem runSteps_succ {s t : State} (k : Nat) (hrs : s.rs = .running) (h : step s = .next t) :
    runSteps (k + 1) s = runSteps k t := by
  simp only [runSteps, hrs, h]

theorem runEnd_eq_notEnded {s : State} (h : s.rs = .running) : runEnd s = .notEnded := by
  simp only [runEnd, h]

/-- Every step of a running core answers a next state. -/
theorem step_running_exists_next {s : State} (hrs : s.rs = .running) : ∃ t, step s = .next t :=
  ⟨_, stepIsTheWrittenDispatcher s hrs⟩

section
variable {s : State} (hc : s.cfg.memSize = .bytes65535)
include hc

theorem lt_of_readByte_ok {a : Word} {b : Byte} (h : readByte s a = .ok b) : a.toNat < 65535 := by
  rcases readByte_cases s a with ⟨hlt, _⟩ | ⟨_, _, he⟩
  · rwa [storeSize, hc] at hlt
  · cases he.symm.trans h

/-- With the store of 65535 bytes no read of bytes runs past 0xFFFE, so none wraps. -/
theorem add_le_of_readBytes_ok {a : Word} {n : Nat} {bs : List Byte} (h : readBytes s a n = .ok bs) :
    a.toNat + n ≤ 65535 := by
  induction n generalizing a bs with
  | zero => have := a.isLt; omega
  | succ n ih =>
    obtain ⟨b, rest, _, hb, hrest⟩ := readBytes_succ_eq_ok_iff.mp h
    have hlt := lt_of_readByte_ok hc hb
    have hle := ih hrest
    bv_omega

/-- With the store of 65535 bytes a step that leaves the core running moves PC up, with no wrap. -/
theorem step_pc_lt {t : State} (hrs : s.rs = .running) (h : step s = .next t) (ht : t.rs = .running) :
    s.pc.toNat < t.pc.toNat := by
  obtain ⟨opcode, bs, n, hop, hbs, hn, hpc⟩ := step_stays_running hrs h ht
  have hop' := lt_of_readByte_ok hc hop
  have hbs' := add_le_of_readBytes_ok hc hbs
  have h1 : (s.pc + 1).toNat = s.pc.toNat + 1 := by bv_omega
  rw [hpc, BitVec.toNat_add, BitVec.toNat_ofNat, h1]
  omega

end

theorem runEnd_runSteps_ne_notEnded {k : Nat} {s : State} (hrs : s.rs = .running) (hc : s.cfg.memSize = .bytes65535)
    (hk : 0x10000 ≤ s.pc.toNat + k) : runEnd (runSteps k s) ≠ .notEnded := by
  induction k generalizing s with
  | zero => exact absurd s.pc.isLt (by omega)
  | succ k ih =>
    obtain ⟨t, h⟩ := step_running_exists_next hrs
    rw [runSteps_succ k hrs h]
    rcases step_running_rs_cases hrs h with ⟨_, ht⟩ | ⟨_, ht | ⟨_, f, ht⟩⟩
    · rw [runSteps_of_not_running k (by simp [ht]), runEnd, ht]
      exact nofun
    · have hpc := step_pc_lt hc hrs h ht
      exact ih ht ((step_running_sameBackground hrs h).cfg ▸ hc) (by omega)
    · rw [runSteps_of_not_running k (by simp [ht]), runEnd, ht]
      exact nofun

/-- Settles O41: every step of the run moves PC up, and PC stays below 0x10000. -/
theorem everyRunEndsInTheReferenceStore : Obligations.EveryRunEndsInTheReferenceStore := by
  intro s hrs hc
  have hpc := s.pc.isLt
  exact runEnd_runSteps_ne_notEnded hrs hc (by omega)

/-- What keeps a core running for ever: the store of 65536 bytes with no 0x00 in it (R68). -/
structure RunsForEver (s : State) : Prop where
  rs : s.rs = .running
  memSize : s.cfg.memSize = .bytes65536
  noHalt : ∀ a, a < 65536 → s.mem.read a ≠ 0x00

theorem RunsForEver.step_next {s : State} (hs : RunsForEver s) : ∃ t, step s = .next t ∧ RunsForEver t := by
  obtain ⟨t, h⟩ := step_running_exists_next hs.rs
  have hb := step_running_sameBackground hs.rs h
  refine ⟨t, h, ?_, hb.cfg ▸ hs.memSize, hb.mem ▸ hs.noHalt⟩
  rcases step_running_rs_cases hs.rs h with ⟨hop, _⟩ | ⟨_, ht | ⟨hc, _⟩⟩
  · rcases readByte_cases s s.pc with ⟨_, hr⟩ | ⟨_, _, hr⟩
    · exact absurd (Except.ok.inj (hr.symm.trans hop)) (hs.noHalt _ s.pc.isLt)
    · cases hr.symm.trans hop
  · exact ht
  · cases hs.memSize.symm.trans hc

theorem RunsForEver.runSteps {s : State} (hs : RunsForEver s) (k : Nat) : RunsForEver (runSteps k s) := by
  induction k generalizing s with
  | zero => exact hs
  | succ k ih =>
    obtain ⟨t, h, ht⟩ := hs.step_next
    rw [runSteps_succ k hs.rs h]
    exact ih ht

/-- Settles O42: `RunsForEver` is an invariant of the run. -/
theorem runWithoutHaltByteNeverEnds : Obligations.RunWithoutHaltByteNeverEnds :=
  fun _ hrs hc hz k => runEnd_eq_notEnded (RunsForEver.runSteps ⟨hrs, hc, hz⟩ k).rs

end Sys2Proof.Machine
end

section
/-! Load-A (42_load.md R69 to R76). Each form is given by the operand that its step reads and by the address that its
meaning loads from; completing and faulting, in the meaning and in the step, are said once for all of them. -/
namespace Sys2Proof.Machine

open Sys2Proof

/-! ### What a completed load leaves -/

/-- PC after a load whose operand stands at `pc` (R63). -/
def pcAfterLoad (i : Instr) (c : Config) (pc : Word) : Word :=
  if omitsAdvance c i.opcode then pc else pc + BitVec.ofNat 16 (operandWidth i.mode)

theorem finishLoad_eq (i : Instr) (v : Byte) (s : State) :
    finishLoad i.opcode i.mode v s = { s with a := v, p := updateZN v s.p, pc := pcAfterLoad i s.cfg s.pc } := by
  rw [finishLoad, advanceOperand, pcAfterLoad, setA_cfg]
  cases omitsAdvance s.cfg i.opcode <;> rfl

section
variable {i : Instr} (hA1 : (i.opcode == 0xA1) = false) (hB1 : (i.opcode == 0xB1) = false) (c : Config) (pc : Word)
include hA1 hB1

/-- OMIT_ADVANCE_OPCODE can name the two indirect opcodes alone (R4). -/
theorem pcAfterLoad_of_not_indirect : pcAfterLoad i c pc = pc + BitVec.ofNat 16 (operandWidth i.mode) := by
  have ho : omitsAdvance c i.opcode = false := by
    rw [omitsAdvance]
    cases c.omitAdvance with
    | none => rfl
    | opcodeA1 => exact hA1
    | opcodeB1 => exact hB1
  rw [pcAfterLoad, ho]
  rfl

/-- The fetch's advance and the operand's as one. -/
theorem pcAfterLoad_succ_of_not_indirect :
    pcAfterLoad i c (pc + 1) = pc + BitVec.ofNat 16 (1 + operandWidth i.mode) := by
  rw [pcAfterLoad_of_not_indirect hA1 hB1, BitVec.add_assoc, BitVec.ofNat_add]
  rfl

end

theorem pcAfterLoad_ldaIndX (zp : Byte) (c : Config) (pc : Word) :
    pcAfterLoad (.ldaIndX zp) c pc = if c.omitAdvance = .opcodeA1 then pc else pc + 1 := by
  rw [pcAfterLoad, omitsAdvance]
  cases c.omitAdvance <;> rfl

theorem pcAfterLoad_ldaIndY (zp : Byte) (c : Config) (pc : Word) :
    pcAfterLoad (.ldaIndY zp) c pc = if c.omitAdvance = .opcodeB1 then pc else pc + 1 := by
  rw [pcAfterLoad, omitsAdvance]
  cases c.omitAdvance <;> rfl

theorem pcAfterLoad_succ_ldaIndX (zp : Byte) (c : Config) (pc : Word) :
    pcAfterLoad (.ldaIndX zp) c (pc + 1) = if c.omitAdvance = .opcodeA1 then pc + 1 else pc + 2 :=
  BitVec.add_assoc pc 1 1 ▸ pcAfterLoad_ldaIndX zp c (pc + 1)

theorem pcAfterLoad_succ_ldaIndY (zp : Byte) (c : Config) (pc : Word) :
    pcAfterLoad (.ldaIndY zp) c (pc + 1) = if c.omitAdvance = .opcodeB1 then pc + 1 else pc + 2 :=
  BitVec.add_assoc pc 1 1 ▸ pcAfterLoad_ldaIndY zp c (pc + 1)

/-! ### A meaning run on its operand -/

theorem exec_ldaImm {imm : Byte} {s : State} {pc : Word} (hpc : pcAfterLoad (.ldaImm imm) s.cfg s.pc = pc) :
    exec (.ldaImm imm) s = .next { s with a := imm, p := updateZN imm s.p, pc := pc } :=
  hpc ▸ congrArg _ (finishLoad_eq (.ldaImm imm) imm s)

section
variable {i : Instr} {s : State} {ea : Word} (ha : loadAddress s i = some ea)
include ha

theorem exec_load_ok {v : Byte} {pc : Word} (hv : readByte s ea = .ok v) (hpc : pcAfterLoad i s.cfg s.pc = pc) :
    exec i s = .next { s with a := v, p := updateZN v s.p, pc := pc } := by
  rw [exec_of_loadAddress ha, ← hpc, ← finishLoad_eq]
  exact congrArg (Host.Outcome.next <| withAccess · s _) hv

theorem exec_load_fault {f : Fault} (hf : readByte s ea = .error f) : exec i s = .next { s with rs := .faulted f } := by
  rw [exec_of_loadAddress ha]
  exact congrArg (Host.Outcome.next <| withAccess · s _) hf

end

theorem loadAddress_advancePc (n : Nat) (s : State) (i : Instr) : loadAddress (advancePc n s) i = loadAddress s i := by
  cases i <;> rfl

/-! ### A step reads its operand, then runs the meaning -/

/-- A step at `s` reads its operand by `r` and runs the instruction that `make` builds from it; a fault of `r` is taken one
past the opcode (R62, R84). -/
structure StepReads {α : Type} (s : State) (r : Except Fault α) (make : α → Instr) : Prop where
  ok {o : α} : r = .ok o → step s = exec (make o) (advancePc 1 s)
  error {f : Fault} : r = .error f → step s = .next { s with pc := s.pc + 1, rs := .faulted f }

section
variable {s : State} {opcode : Byte} (h : s.fetches opcode)
include h

theorem stepReads_of_readBytes {α : Type} {r : Except Fault α} {bytesOf : α → List Byte} {make : α → Instr}
    (hr : readBytes s (s.pc + 1) (operandCount opcode) = bytesOf <$> r)
    (hd : ∀ o, decode (opcode :: bytesOf o) = .ok (make o, [])) : StepReads s r make where
  ok ho := step_of_operand h (hr.trans (congrArg _ ho)) (hd _)
  error hf := step_of_operand_error h (hr.trans (congrArg _ hf))

theorem stepReads_byte {make : Byte → Instr} (hn : operandCount opcode = 1)
    (hd : ∀ bs, decode (opcode :: bs) = takeByte opcode make bs) : StepReads s (readByte s (s.pc + 1)) make :=
  stepReads_of_readBytes h (hn ▸ readBytes_one s (s.pc + 1)) fun b => hd [b]

theorem stepReads_word {make : Word → Instr} (hn : operandCount opcode = 2)
    (hd : ∀ bs, decode (opcode :: bs) = takeWord opcode make bs) : StepReads s (readWord s (s.pc + 1)) make :=
  stepReads_of_readBytes h (hn ▸ readBytes_two s (s.pc + 1)) fun w => (hd _).trans (takeWord_low_high opcode make w [])

end

section
variable {α : Type} {s : State} {r : Except Fault α} {make : α → Instr} (hs : StepReads s r make)
include hs

theorem StepReads.load_ok {o : α} {ea : Word} {v : Byte} {pc : Word} (ho : r = .ok o)
    (ha : loadAddress s (make o) = some ea) (hv : readByte s ea = .ok v)
    (hpc : pcAfterLoad (make o) s.cfg (s.pc + 1) = pc) :
    step s = .next { s with a := v, p := updateZN v s.p, pc := pc } := by
  rw [hs.ok ho, exec_load_ok ((loadAddress_advancePc ..).trans ha) ((readByte_advancePc ..).trans hv) hpc]
  rfl

theorem StepReads.load_fault {f : Fault}
    (hf : r = .error f ∨ ∃ o ea, r = .ok o ∧ loadAddress s (make o) = some ea ∧ readByte s ea = .error f) :
    step s = .next { s with pc := s.pc + 1, rs := .faulted f } := by
  rcases hf with hf | ⟨o, ea, ho, ha, hf⟩
  · exact hs.error hf
  · rw [hs.ok ho, exec_load_fault ((loadAddress_advancePc ..).trans ha) ((readByte_advancePc ..).trans hf)]
    rfl

end

/-! ### The address of each form, as its rule gives it -/

/-- The index wraps within the zero page, which is always in the store (R53). -/
theorem readByte_zeroPageIndexed (s : State) (zp index : Byte) :
    readByte s (zeroPageIndexed zp index) = .ok (s.mem.read ((zp.toNat + index.toNat) % 256)) := by
  rw [zeroPageIndexed, readByte_zeroPage, BitVec.toNat_add]

section
variable {s : State} {ea : Word}

theorem loadAddress_ldaAbsX {base : Word} (h : ea.toNat = (base.toNat + s.x.toNat) % 65536) :
    loadAddress s (.ldaAbsX base) = some ea :=
  congrArg some (BitVec.eq_of_toNat_eq ((absoluteIndexed_toNat base s.x).trans h.symm))

theorem loadAddress_ldaAbsY {base : Word} (h : ea.toNat = (base.toNat + s.y.toNat) % 65536) :
    loadAddress s (.ldaAbsY base) = some ea :=
  congrArg some (BitVec.eq_of_toNat_eq ((absoluteIndexed_toNat base s.y).trans h.symm))

theorem loadAddress_ldaIndX {zp : Byte}
    (h : ea.toNat = 256 * (s.mem.read ((zp.toNat + s.x.toNat + 1) % 256)).toNat +
      (s.mem.read ((zp.toNat + s.x.toNat) % 256)).toNat) :
    loadAddress s (.ldaIndX zp) = some ea :=
  congrArg some (BitVec.eq_of_toNat_eq ((pointerAt_indexed_toNat s zp s.x).trans h.symm))

theorem loadAddress_ldaIndY {zp : Byte}
    (h : ea.toNat = (256 * (s.mem.read ((zp.toNat + 1) % 256)).toNat + (s.mem.read zp.toNat).toNat + s.y.toNat) % 65536) :
    loadAddress s (.ldaIndY zp) = some ea := by
  refine congrArg some (BitVec.eq_of_toNat_eq ?_)
  rw [h, ← pointerAt_toNat]
  exact absoluteIndexed_toNat (pointerAt s zp) s.y

end

/-! ### The eight forms -/

/-- What R73 to R76 share, for a form whose data address is the one that `Names` relates to its operand, and whose meaning
and step leave PC at `execPc` and `stepPc`. -/
theorem load_completes_or_faults {α : Type} {opcode : Byte} {make : α → Instr} {operand : State → Except Fault α}
    {Names : State → α → Word → Prop} {execPc stepPc : State → Word}
    (reads : ∀ {s}, s.fetches opcode → StepReads s (operand s) make)
    (address : ∀ {s ea o}, Names s o ea → loadAddress s (make o) = some ea)
    (hexec : ∀ s o, pcAfterLoad (make o) s.cfg s.pc = execPc s)
    (hstep : ∀ s o, pcAfterLoad (make o) s.cfg (s.pc + 1) = stepPc s) :
    (∀ o ea s v, Names s o ea → readByte s ea = .ok v →
      exec (make o) s = .next { s with a := v, p := updateZN v s.p, pc := execPc s }) ∧
    (∀ o ea s f, Names s o ea → readByte s ea = .error f → exec (make o) s = .next { s with rs := .faulted f }) ∧
    (∀ s o ea v, s.fetches opcode → operand s = .ok o → Names s o ea → readByte s ea = .ok v →
      step s = .next { s with a := v, p := updateZN v s.p, pc := stepPc s }) ∧
    (∀ s f, s.fetches opcode →
      (operand s = .error f ∨ ∃ o ea, operand s = .ok o ∧ Names s o ea ∧ readByte s ea = .error f) →
      step s = .next { s with pc := s.pc + 1, rs := .faulted f }) := by
  refine ⟨fun o ea s v hn hv => ?_, fun o ea s f hn hf => ?_, fun s o ea v h ho hn hv => ?_, fun s f h hf => ?_⟩
  · exact exec_load_ok (address hn) hv (hexec s o)
  · exact exec_load_fault (address hn) hf
  · exact (reads h).load_ok ho (address hn) hv (hstep s o)
  · exact (reads h).load_fault (hf.imp_right fun ⟨o, ea, ho, hn, hf⟩ => ⟨o, ea, ho, address hn, hf⟩)

/-- Settles O16: the operand read is the data read. -/
theorem ldaImmediateLoadsItsOperand : Obligations.LdaImmediateLoadsItsOperand := by
  have reads {s : State} (h : s.fetches 0xA9) := stepReads_byte h (make := .ldaImm) rfl fun _ => rfl
  refine ⟨fun imm s => ?_, fun s imm h hb => ?_, fun s f h hf => (reads h).error hf⟩
  · exact exec_ldaImm (pcAfterLoad_of_not_indirect rfl rfl ..)
  · rw [(reads h).ok hb, exec_ldaImm (pcAfterLoad_succ_of_not_indirect rfl rfl ..)]
    rfl

/-- Settles O17: the data read is in the zero page. -/
theorem ldaZeroPageLoadsTheZeroPageByte : Obligations.LdaZeroPageLoadsTheZeroPageByte := by
  have reads {s : State} (h : s.fetches 0xA5) := stepReads_byte h (make := .ldaZp) rfl fun _ => rfl
  refine ⟨fun zp s => ?_, fun s zp h hb => ?_, fun s f h hf => (reads h).error hf⟩
  · exact exec_load_ok rfl (readByte_zeroPage s zp) (pcAfterLoad_of_not_indirect rfl rfl ..)
  · exact (reads h).load_ok hb rfl (readByte_zeroPage s zp) (pcAfterLoad_succ_of_not_indirect rfl rfl ..)

/-- Settles O18: the data read is in the zero page, the index added. -/
theorem ldaZeroPageXWrapsInTheZeroPage : Obligations.LdaZeroPageXWrapsInTheZeroPage := by
  have reads {s : State} (h : s.fetches 0xB5) := stepReads_byte h (make := .ldaZpX) rfl fun _ => rfl
  refine ⟨fun zp s v hv => ?_, fun s zp v h hb hv => ?_, fun s f h hf => (reads h).error hf⟩ <;> subst hv
  · exact exec_load_ok rfl (readByte_zeroPageIndexed s zp s.x) (pcAfterLoad_of_not_indirect rfl rfl ..)
  · exact (reads h).load_ok hb rfl (readByte_zeroPageIndexed s zp s.x) (pcAfterLoad_succ_of_not_indirect rfl rfl ..)

/-- Settles O19: the address is the operand. -/
theorem ldaAbsoluteLoadsOrFaults : Obligations.LdaAbsoluteLoadsOrFaults := by
  have reads {s : State} (h : s.fetches 0xAD) := stepReads_word h (make := .ldaAbs) rfl fun _ => rfl
  refine ⟨fun base s v hv => ?_, fun base s f hf => ?_, fun s base v h hb hv => ?_, fun s f h hf => ?_⟩
  · exact exec_load_ok rfl hv (pcAfterLoad_of_not_indirect rfl rfl ..)
  · exact exec_load_fault rfl hf
  · exact (reads h).load_ok hb rfl hv (pcAfterLoad_succ_of_not_indirect rfl rfl ..)
  · exact (reads h).load_fault (hf.imp_right fun ⟨base, hb, hf⟩ => ⟨base, base, hb, rfl, hf⟩)

/-- Settles O20: `load_completes_or_faults` at the address of R73. -/
theorem ldaAbsoluteXLoadsOrFaults : Obligations.LdaAbsoluteXLoadsOrFaults :=
  load_completes_or_faults (fun h => stepReads_word h rfl fun _ => rfl) loadAddress_ldaAbsX
    (fun _ _ => pcAfterLoad_of_not_indirect rfl rfl ..) fun _ _ => pcAfterLoad_succ_of_not_indirect rfl rfl ..

/-- Settles O21: `load_completes_or_faults` at the address of R74. -/
theorem ldaAbsoluteYLoadsOrFaults : Obligations.LdaAbsoluteYLoadsOrFaults :=
  load_completes_or_faults (fun h => stepReads_word h rfl fun _ => rfl) loadAddress_ldaAbsY
    (fun _ _ => pcAfterLoad_of_not_indirect rfl rfl ..) fun _ _ => pcAfterLoad_succ_of_not_indirect rfl rfl ..

/-- Settles O22: `load_completes_or_faults` at the address of R75; OMIT_ADVANCE_OPCODE can name this opcode. -/
theorem ldaIndirectXLoadsOrFaults : Obligations.LdaIndirectXLoadsOrFaults :=
  load_completes_or_faults (fun h => stepReads_byte h rfl fun _ => rfl) loadAddress_ldaIndX
    (fun _ _ => pcAfterLoad_ldaIndX ..) fun _ _ => pcAfterLoad_succ_ldaIndX ..

/-- Settles O23: `load_completes_or_faults` at the address of R76; OMIT_ADVANCE_OPCODE can name this opcode. -/
theorem ldaIndirectYLoadsOrFaults : Obligations.LdaIndirectYLoadsOrFaults :=
  load_completes_or_faults (fun h => stepReads_byte h rfl fun _ => rfl) loadAddress_ldaIndY
    (fun _ _ => pcAfterLoad_ldaIndY ..) fun _ _ => pcAfterLoad_succ_ldaIndY ..

end Sys2Proof.Machine
end

section
/-! Register instructions (43_register.md R77, R78). The dispatcher gives the steps; the flags after INX are those of its sum,
told from the X before it. -/
namespace Sys2Proof.Machine

open Sys2Proof

/-- Settles O25, by the dispatcher's Transfer-A-to-X branch. -/
theorem taxCopiesAToX : Obligations.TaxCopiesAToX :=
  ⟨fun _ => rfl, fun _ h => step_eq_pseudoExecute h⟩

/-- Z after INX: 0xFF is the one byte whose successor wraps to zero (R78). -/
theorem byte_add_one_eq_zero_iff (x : Byte) : x + 1 = 0 ↔ x = 0xFF := by
  bv_omega

/-- N after INX: the successor has bit 7 from 0x7F up, but for the wrap of 0xFF (R78). -/
theorem byte_add_one_getLsbD_seven (x : Byte) :
    (x + 1).getLsbD 7 = decide (0x7F ≤ x.toNat ∧ x.toNat < 0xFF) := by
  have hmsb : (x + 1).getLsbD 7 = decide (0x80 ≤ (x + 1).toNat) :=
    (BitVec.msb_eq_getLsbD_last (x + 1)).symm.trans (BitVec.msb_eq_decide (x + 1))
  have hadd : (x + 1).toNat = (x.toNat + 1) % 256 := BitVec.toNat_add x 1
  rw [hmsb, hadd, decide_eq_decide]
  omega

/-- Settles O26: the dispatcher's Increment-X branch, and `updateZN` of the sum. -/
theorem inxIncrementsX : Obligations.InxIncrementsX := by
  refine ⟨fun _ => rfl, fun _ h => step_eq_pseudoExecute h, fun s t h => ?_⟩
  obtain rfl : setX (s.x + 1) s = t := Host.Outcome.next.inj h
  refine ⟨BitVec.toNat_add s.x 1, ?_, ?_⟩
  · rw [setX_p, zeroFlag_updateZN, decide_eq_decide]
    exact byte_add_one_eq_zero_iff s.x
  · rw [setX_p, negativeFlag_updateZN]
    exact byte_add_one_getLsbD_seven s.x

end Sys2Proof.Machine
end

section
/-! Exceptions (60_exceptions.md): the one fault a step can take and how it leaves the state, that no session takes
InternalDefect, and that no host call clears a fault. -/
namespace Sys2Proof.Machine

open Sys2Proof

/-! ### The faults a step takes -/

/-- Settles O32: the step of a running core is the written dispatcher's, which answers a state. -/
theorem runningCoreAlwaysSteps : Obligations.RunningCoreAlwaysSteps := fun _ => step_running_exists_next

/-- A meaning that leaves a running core faulted has taken the fault of its data read at 0xFFFF and done nothing else. -/
theorem exec_faulted {i : Instr} {s t : State} {f : Fault} (hrs : s.rs = .running) (h : exec i s = .next t)
    (ht : t.rs = .faulted f) :
    f = .outOfBounds 65535 .read ∧ s.cfg.memSize = .bytes65535 ∧ t = takeFault f s := by
  rcases exec_cases i s with ⟨_, he⟩ | ⟨_, he⟩ | ⟨v, _, he⟩ | ⟨_, v, he⟩ | ⟨_, hc, _, he⟩ <;>
    obtain rfl := Host.Outcome.next.inj (he.symm.trans h)
  · cases ht
  · cases hrs.symm.trans ht
  · cases hrs.symm.trans ht
  · rw [finishLoad_rs] at ht
    cases hrs.symm.trans ht
  · cases ht
    exact ⟨rfl, hc, rfl⟩

/-- A fault taken in a step is that of a read at 0xFFFF: of the opcode read, with PC at the opcode, or of an operand or data
read, with PC one past it. -/
theorem step_running_faulted {s t : State} {f : Fault} (hrs : s.rs = .running) (h : step s = .next t)
    (ht : t.rs = .faulted f) :
    f = .outOfBounds 65535 .read ∧ s.cfg.memSize = .bytes65535 ∧
      ((s.pc = 0xFFFF ∧ t = takeFault f s) ∨ (s.pc ≠ 0xFFFF ∧ t = takeFault f (advancePc 1 s))) := by
  have inside : s.pc.toNat < storeSize s.cfg → s.cfg.memSize = .bytes65535 → s.pc ≠ 0xFFFF :=
    fun hlt hc hpc => Nat.not_le.mpr hlt ((storeSize_le_iff s.cfg s.pc).mpr ⟨hc, hpc⟩)
  rcases step_running hrs with ⟨hc, hpc, hs⟩ | ⟨hlt, hc, _, hs⟩ | ⟨hlt, _, i, _, _, _, _, hs⟩
  · obtain rfl := Host.Outcome.next.inj (hs.symm.trans h)
    cases ht
    exact ⟨rfl, hc, .inl ⟨hpc, rfl⟩⟩
  · obtain rfl := Host.Outcome.next.inj (hs.symm.trans h)
    cases ht
    exact ⟨rfl, hc, .inr ⟨inside hlt hc, rfl⟩⟩
  · obtain ⟨hf, hc, he⟩ := exec_faulted (s := advancePc 1 s) hrs (hs.symm.trans h) ht
    exact ⟨hf, hc, .inr ⟨inside hlt hc, he⟩⟩

/-- Settles O34: `takeFault` writes the run state alone, and before it at most the fetch advance is done. -/
theorem faultsArePrecise : Obligations.FaultsArePrecise := fun _ _ _ => step_running_faulted

/-! ### No session takes InternalDefect -/

/-- The way from `s` to `t` has taken no InternalDefect: one that `t` shows was there in `s` (R81). -/
def NoNewInternalDefect (s t : State) : Prop :=
  ∀ m, t.rs = .faulted (.internalDefect m) → s.rs = .faulted (.internalDefect m)

theorem NoNewInternalDefect.of_rs_eq {s t : State} (h : t.rs = s.rs) : NoNewInternalDefect s t :=
  fun _ ht => h.symm.trans ht

theorem NoNewInternalDefect.refl (s : State) : NoNewInternalDefect s s := .of_rs_eq rfl

theorem NoNewInternalDefect.trans {s t u : State} (h : NoNewInternalDefect s t) (h' : NoNewInternalDefect t u) :
    NoNewInternalDefect s u :=
  fun m hu => h m (h' m hu)

/-- A store of a byte keeps the run state or takes OutOfBounds (R30). -/
theorem withAccess_storeAt_noNewInternalDefect {k : State → State} (hk : ∀ t, NoNewInternalDefect t (k t)) (s : State)
    (addr : Nat) (v : Byte) : NoNewInternalDefect s (withAccess (storeAt s addr v) s k) := by
  rcases Nat.lt_or_ge addr (storeSize s.cfg) with hlt | hge
  · rw [storeAt_ok v hlt, withAccess_ok]
    exact NoNewInternalDefect.trans (.of_rs_eq rfl) (hk _)
  · rw [storeAt_error v hge, withAccess_error]
    exact nofun

theorem storeImage_noNewInternalDefect (s : State) (addr : Nat) (img : List Byte) :
    NoNewInternalDefect s (storeImage s addr img) := by
  induction img generalizing s addr with
  | nil => exact .refl s
  | cons b rest ih => exact withAccess_storeAt_noNewInternalDefect (fun t => ih t (addr + 1)) s addr b

theorem loadEffect_noNewInternalDefect (img : List Byte) (s : State) : NoNewInternalDefect s (loadEffect img s) := by
  have himg := storeImage_noNewInternalDefect s loadOrigin.toNat img
  rcases loadEffect_cases img s with h | h <;> rw [h]
  · exact himg
  · rw [writeWord_resetVector, withAccess_ok]
    exact himg.trans (.of_rs_eq rfl)

theorem resetEffect_noNewInternalDefect (s : State) : NoNewInternalDefect s (resetEffect s) := by
  rw [resetEffect_eq]
  exact nofun

theorem seedEffect_noNewInternalDefect (sd : Seed) (s : State) : NoNewInternalDefect s (seedEffect sd s) := by
  cases sd with
  | byte addr v => exact withAccess_storeAt_noNewInternalDefect .refl s addr.toNat v
  | a v => exact .of_rs_eq rfl
  | x v => exact .of_rs_eq rfl
  | y v => exact .of_rs_eq rfl
  | p v => exact .of_rs_eq rfl
  | pc v => exact .of_rs_eq rfl

theorem hostGuard_noNewInternalDefect {s effect t : State} (he : NoNewInternalDefect s effect)
    (h : hostGuard s effect = .next t) : NoNewInternalDefect s t := by
  rcases hostGuard_next h with rfl | rfl
  · exact he
  · exact .refl _

theorem hostLoad_noNewInternalDefect {img : List Byte} {s t : State} (h : hostLoad img s = .next t) :
    NoNewInternalDefect s t :=
  hostGuard_noNewInternalDefect (loadEffect_noNewInternalDefect img s) h

theorem hostReset_noNewInternalDefect {s t : State} (h : hostReset s = .next t) : NoNewInternalDefect s t :=
  hostGuard_noNewInternalDefect (resetEffect_noNewInternalDefect s) h

theorem hostRun_noNewInternalDefect {s t : State} (h : hostRun s = .next t) : NoNewInternalDefect s t :=
  hostGuard_noNewInternalDefect (effect := { s with rs := .running }) nofun h

theorem hostCall_noNewInternalDefect {c : HostCall} {s t : State} (h : hostCall c s = .next t) :
    NoNewInternalDefect s t := by
  cases c with
  | load img => exact hostLoad_noNewInternalDefect h
  | reset => exact hostReset_noNewInternalDefect h
  | run => exact hostRun_noNewInternalDefect h
  | loadAndRun img =>
    obtain ⟨u, hu, hrun⟩ := andThen_next h
    obtain ⟨v, hload, hreset⟩ := andThen_next hu
    exact (hostLoad_noNewInternalDefect hload).trans
      ((hostReset_noNewInternalDefect hreset).trans (hostRun_noNewInternalDefect hrun))
  | seed sd =>
    obtain rfl := seedGuard_next h
    exact seedEffect_noNewInternalDefect sd s

theorem step_running_noNewInternalDefect {s t : State} (hrs : s.rs = .running) (h : step s = .next t) :
    NoNewInternalDefect s t := by
  intro m ht
  obtain ⟨hf, _⟩ := step_running_faulted hrs h ht
  cases hf

theorem session_noNewInternalDefect {calls : List HostCall} {k : Nat} {s t : State} (h : session calls k s = .next t) :
    NoNewInternalDefect s t :=
  session_induction .refl (fun _ _ _ => .trans) (fun _ _ _ => hostCall_noNewInternalDefect)
    (fun _ _ => step_running_noNewInternalDefect) h

/-- Settles O55: steps and host calls alike take OutOfBounds alone, so a session's InternalDefect stands at its start. -/
theorem internalDefectIsNeverTaken : Obligations.InternalDefectIsNeverTaken :=
  fun _ _ _ _ m hs h ht => hs (session_noNewInternalDefect h m ht)

/-! ### No host call clears a fault -/

section
variable {s : State} {f : Fault} (hf : s.rs = .faulted f)
include hf

theorem hostLoad_faulted (img : List Byte) : hostLoad img s = .next s := hostGuard_faulted _ hf

theorem hostReset_faulted : hostReset s = .next s := hostGuard_faulted _ hf

theorem hostRun_faulted : hostRun s = .next s := hostGuard_faulted _ hf

theorem hostLoadAndRun_faulted (img : List Byte) : hostLoadAndRun img s = .next s := by
  simp only [hostLoadAndRun, andThen, hostLoad_faulted hf, hostReset_faulted hf, hostRun_faulted hf]

theorem hostSeed_faulted (sd : Seed) : hostSeed sd s = .refused .seedingFaultedCore := by
  simp only [hostSeed, seedGuard, hf]

theorem hostCall_faulted {c : HostCall} {t : State} (h : hostCall c s = .next t) : t = s := by
  cases c with
  | load img => exact (Host.Outcome.next.inj ((hostLoad_faulted hf img).symm.trans h)).symm
  | reset => exact (Host.Outcome.next.inj ((hostReset_faulted hf).symm.trans h)).symm
  | run => exact (Host.Outcome.next.inj ((hostRun_faulted hf).symm.trans h)).symm
  | loadAndRun img => exact (Host.Outcome.next.inj ((hostLoadAndRun_faulted hf img).symm.trans h)).symm
  | seed sd => cases (hostSeed_faulted hf sd).symm.trans h

theorem hostCalls_faulted {calls : List HostCall} {t : State} (h : hostCalls calls s = .next t) : t = s := by
  induction calls with
  | nil => exact (Host.Outcome.next.inj h).symm
  | cons c rest ih =>
    obtain ⟨u, hc, hrest⟩ := andThen_next h
    obtain rfl := hostCall_faulted hf hc
    exact ih hrest

end

/-- Settles O51: the four calls' guard answers a faulted core as it is, and seeding one is refused. -/
theorem hostCannotClearAFault : Obligations.HostCannotClearAFault :=
  ⟨fun _ _ img hf => ⟨hostLoad_faulted hf img, hostReset_faulted hf, hostRun_faulted hf, hostLoadAndRun_faulted hf img⟩,
    fun _ _ _ _ hf h => hostCalls_faulted hf h⟩

end Sys2Proof.Machine
end

section
/-! Reset, the host and the end of runs (70_reset_and_hazards.md). Each host call is given once as an equation on the
core that it acts on; the run state that `load`'s image store leaves decides whether the vector is written. -/
namespace Sys2Proof.Machine

open Sys2Proof

/-! ### What a halted run has read -/

theorem runEnd_eq_halted_iff {s : State} : runEnd s = .halted ↔ s.rs = .halted := by
  cases h : s.rs <;> simp [runEnd, h]

/-- A halted core has 0x00 as the byte before PC (R64, R100). -/
def HaltedPastAZeroByte (s : State) : Prop := s.rs = .halted → readByte s (s.pc - 1) = .ok 0x00

theorem step_running_haltedPastAZeroByte {s t : State} (hrs : s.rs = .running) (h : step s = .next t) :
    HaltedPastAZeroByte t := by
  intro ht
  have hop : readByte s s.pc = .ok 0x00 := (haltedOnlyByOpcodeZero s t hrs h).mp ht
  obtain ⟨_, halts⟩ := hltHaltsAndChangesNothingElse
  have hpc : t.pc = s.pc + 1 := by
    obtain rfl := Host.Outcome.next.inj ((halts s ⟨hrs, hop⟩).symm.trans h)
    rfl
  rw [(step_running_sameBackground hrs h).readByte_eq, hpc, BitVec.add_sub_cancel, hop]

theorem runSteps_haltedPastAZeroByte (k : Nat) {s : State} (hs : HaltedPastAZeroByte s) :
    HaltedPastAZeroByte (runSteps k s) :=
  runSteps_induction (R := fun s t => HaltedPastAZeroByte s → HaltedPastAZeroByte t) (fun _ => id)
    (fun _ _ _ hrs h ih _ => ih (step_running_haltedPastAZeroByte hrs h)) k s hs

/-- Settles O43: only the step of a 0x00 byte halts, and it leaves PC one past that byte. -/
theorem haltedRunStandsPastAZeroByte : Obligations.HaltedRunStandsPastAZeroByte := by
  intro s k hrs hk
  have hs : HaltedPastAZeroByte s := fun h => nomatch hrs.symm.trans h
  exact runSteps_haltedPastAZeroByte k hs (runEnd_eq_halted_iff.mp hk)

/-! ### Reset and run -/

section
variable {s : State} (hrs : s.rs = .idle ∨ s.rs = .halted)
include hrs

theorem hostReset_acts :
    hostReset s = .next { s with
      a := 0x00, x := 0x00, p := 0x00, pc := joinBytes (s.mem.read 0xFFFD) (s.mem.read 0xFFFC), rs := .idle } := by
  rw [hostReset, hostGuard_acts hrs, resetEffect_eq]

theorem hostRun_acts : hostRun s = .next { s with rs := .running } := hostGuard_acts hrs

theorem hostLoad_acts (img : List Byte) : hostLoad img s = .next (loadEffect img s) := hostGuard_acts hrs

theorem hostSeed_acts (sd : Seed) : hostSeed sd s = .next (seedEffect sd s) := seedGuard_acts hrs

end

/-- Settles O44: the vector's bytes are in the store, so the read that gives PC answers. -/
theorem hostResetZeroesAndLoadsTheVector : Obligations.HostResetZeroesAndLoadsTheVector :=
  fun s hrs => ⟨_, hostReset_acts hrs, rfl, rfl, rfl, rfl, rfl, rfl, rfl, readWord_resetVector s⟩

/-- Settles O45: power-on leaves the core idle with the launch's store, and `reset` acts on it. -/
theorem resetStateIsResetOfPowerOn : Obligations.ResetStateIsResetOfPowerOn :=
  ⟨hostReset_acts (.inl rfl),
    fun _ _ => ⟨_, hostReset_acts (.inl rfl), rfl, rfl, rfl, rfl, rfl, rfl, rfl, joinBytes_toNat _ _⟩⟩

/-- Settles O48: the guard lets `run` act. -/
theorem hostRunStartsAtTheCurrentPc : Obligations.HostRunStartsAtTheCurrentPc := fun _ => hostRun_acts

/-! ### Load -/

/-- After an image that was stored the vector is written (R93). -/
theorem loadEffect_of_stored {img : List Byte} {s t : State} (h : storeImage s loadOrigin.toNat img = t)
    (ht : t.rs = .idle ∨ t.rs = .halted) :
    loadEffect img s = { t with mem := (t.mem.write 0xFFFC 0x00).write 0xFFFD 0x80 } := by
  rcases ht with ht | ht <;> simp only [loadEffect, h, ht, writeWord_resetVector, withAccess_ok, id]

/-- After an image that faulted nothing more is done (R93, D13). -/
theorem loadEffect_of_faulted {img : List Byte} {s t : State} {f : Fault} (h : storeImage s loadOrigin.toNat img = t)
    (ht : t.rs = .faulted f) : loadEffect img s = t := by
  simp only [loadEffect, h, ht]

theorem loadOrigin_le_storeSize (c : Config) : loadOrigin.toNat ≤ storeSize c := by
  rcases storeSize_cases c with ⟨_, hc⟩ | ⟨_, hc⟩ <;> rw [hc] <;> decide

/-- What the vector's write leaves of a canonical store. -/
theorem Memory.read_write_vector {m : Memory} (h : m.wf = true) (a : Nat) :
    ((m.write 0xFFFC 0x00).write 0xFFFD 0x80).read a =
      if a = 0xFFFC then 0x00 else if a = 0xFFFD then 0x80 else m.read a := by
  rw [Memory.read_write _ _ _ (Memory.wf_write _ _ h), Memory.read_write _ _ _ h]
  by_cases ha : a = 0xFFFC
  · rw [if_neg (by omega), if_pos ha, if_pos ha]
  · rw [if_neg ha, if_neg ha]

/-- Settles O46: the image's bytes are stored without a fault, and the vector's two writes come after them. -/
theorem loadStoresAnImageThatFits : Obligations.LoadStoresAnImageThatFits := by
  intro img s hs hrs hfit
  obtain ⟨hwf, _⟩ := sound_iff.mp hs
  obtain ⟨m, hm, hmwf, _, hread⟩ := storeImage_fits s loadOrigin.toNat img hwf hfit
  have hload := (hostLoad_acts hrs img).trans (congrArg _ (loadEffect_of_stored hm hrs))
  refine ⟨_, hload, rfl, (hostLoad_keepsSound hload).sound hs, fun a => ?_⟩
  rw [Memory.read_write_vector hmwf, hread]
  rfl

/-- Settles O47: the image store faults at the store's end, and `load` ends there. -/
theorem loadOfAnOverlongImageFaults : Obligations.LoadOfAnOverlongImageFaults := by
  intro img s hs hrs hlong
  obtain ⟨hwf, _⟩ := sound_iff.mp hs
  obtain ⟨m, hm, _, _, hread⟩ := storeImage_faults s loadOrigin.toNat img hwf (loadOrigin_le_storeSize s.cfg) hlong
  have hload := (hostLoad_acts hrs img).trans (congrArg _ (loadEffect_of_faulted hm rfl))
  exact ⟨_, hload, rfl, (hostLoad_keepsSound hload).sound hs, hread⟩

/-! ### Load and run -/

theorem hostLoadAndRun_of_hostLoad {img : List Byte} {s u : State} (h : hostLoad img s = .next u) :
    hostLoadAndRun img s = andThen (hostReset u) hostRun := by
  rw [hostLoadAndRun, h]
  rfl

/-- `reset` of a core that is not faulted leaves it idle, so `run` starts it at the vector. -/
theorem hostReset_andThen_hostRun {u : State} (hu : u.rs = .idle ∨ u.rs = .halted) :
    andThen (hostReset u) hostRun = .next { u with
      a := 0x00, x := 0x00, p := 0x00, pc := joinBytes (u.mem.read 0xFFFD) (u.mem.read 0xFFFC), rs := .running } := by
  rw [hostReset_acts hu]
  exact hostRun_acts (.inl rfl)

/-- A faulted core stays as it is through `reset` and `run` (R85). -/
theorem hostReset_andThen_hostRun_faulted {u : State} {f : Fault} (hu : u.rs = .faulted f) :
    andThen (hostReset u) hostRun = .next u := by
  rw [hostReset_faulted hu]
  exact hostRun_faulted hu

/-- Settles O49: `load` of an image that fits has put 0x8000 into the vector that `reset` reads, and the fault of one
that does not is kept by the other two calls. -/
theorem loadAndRunStartsAtTheLoadOrigin : Obligations.LoadAndRunStartsAtTheLoadOrigin := by
  intro img s hs hrs
  refine ⟨fun hfit => ?_, fun hlong => ?_⟩
  · obtain ⟨u, hload, hu, _, hread⟩ := loadStoresAnImageThatFits img s hs hrs hfit
    have hurs : u.rs = .idle ∨ u.rs = .halted := by rwa [hu]
    have huy : u.y = s.y := by rw [hu]
    have hpc : joinBytes (u.mem.read 0xFFFD) (u.mem.read 0xFFFC) = 0x8000 := by
      have hlow : u.mem.read 0xFFFC = 0x00 := (hread 0xFFFC).trans (if_pos rfl)
      have hhigh : u.mem.read 0xFFFD = 0x80 := (hread 0xFFFD).trans (if_neg (by decide))
      rw [hlow, hhigh]
      rfl
    exact ⟨_, u, hload, (hostLoadAndRun_of_hostLoad hload).trans (hostReset_andThen_hostRun hurs), hpc, rfl, rfl, rfl,
      huy, rfl, (hostLoad_keepsSound hload).cfg, rfl⟩
  · obtain ⟨t, hload, ht, _⟩ := loadOfAnOverlongImageFaults img s hs hrs hlong
    rw [hostLoadAndRun_of_hostLoad hload, hostReset_andThen_hostRun_faulted (congrArg State.rs ht), hload]

/-! ### Seeding, and calls while the core runs -/

section
variable {s : State} {a : Word} (v : Byte) (hrs : s.rs = .idle ∨ s.rs = .halted)
include hrs

theorem hostSeed_byte_inStore (ha : inStore s a = true) :
    hostSeed (.byte a v) s = .next { s with mem := s.mem.write a.toNat v } := by
  rw [hostSeed_acts hrs, seedEffect, writeByte_ok v (inStore_iff.mp ha)]
  rfl

theorem hostSeed_byte_pastStore (ha : inStore s a = false) :
    hostSeed (.byte a v) s = .next { s with rs := .faulted (.outOfBounds a.toNat .write) } := by
  have hpast : storeSize s.cfg ≤ a.toNat := Nat.not_lt.mp (decide_eq_false_iff_not.mp ha)
  rw [hostSeed_acts hrs, seedEffect, writeByte, storeAt_error v hpast]
  rfl

end

theorem hostGuard_running {s : State} (effect : State) (h : s.rs = .running) :
    hostGuard s effect = .refused .hostCallWhileRunning := by
  simp only [hostGuard, h]

theorem seedGuard_running {s : State} (effect : State) (h : s.rs = .running) :
    seedGuard s effect = .refused .hostCallWhileRunning := by
  simp only [seedGuard, h]

/-- `load_and_run` is refused in its first call. -/
theorem hostCall_running {s : State} (h : s.rs = .running) (c : HostCall) :
    hostCall c s = .refused .hostCallWhileRunning := by
  cases c with
  | load img => exact hostGuard_running _ h
  | reset => exact hostGuard_running _ h
  | run => exact hostGuard_running _ h
  | loadAndRun img =>
    have hload : hostLoad img s = .refused .hostCallWhileRunning := hostGuard_running _ h
    simp only [hostCall, hostLoadAndRun, hload, andThen]
  | seed sd => exact seedGuard_running _ h

/-- Settles O50: a register seed is one field, a byte seed is one `WriteByte`, and the guards refuse the rest. -/
theorem hostSeedingWritesWhatItNames : Obligations.HostSeedingWritesWhatItNames := by
  refine ⟨fun s hrs => ?_, fun s f sd hf => hostSeed_faulted hf sd, fun s c h => hostCall_running h c⟩
  refine ⟨fun v => hostSeed_acts hrs (.a v), fun v => hostSeed_acts hrs (.x v), fun v => hostSeed_acts hrs (.y v),
    fun v => hostSeed_acts hrs (.p v), fun v => hostSeed_acts hrs (.pc v), fun a v ha => ?_, fun a v ha => ?_⟩
  · exact ⟨_, writeByte_ok v (inStore_iff.mp ha), hostSeed_byte_inStore v hrs ha⟩
  · exact hostSeed_byte_pastStore v hrs ha

end Sys2Proof.Machine
end
